-- ==== Sys2Proof/Word.lean ====
section
/-! DEFINITION. The widths of the values the core moves: bytes, 16-bit words and register numbers. -/

namespace Sys2Proof

/-- A memory byte, a general register or a timer (spec/00_scope.md R7). -/
abbrev Byte := BitVec 8

/-- A 16-bit value: I, PC, a stack entry, an instruction word (spec/00_scope.md R7). -/
abbrev Word := BitVec 16

/-- The number of a general register, V0 to VF. Register numbers come from 4-bit fields, so every one is
valid (spec/10_state.md R31). -/
abbrev Reg := Fin 16

/-- VF, the general register that doubles as the flag (spec/10_state.md R32). -/
abbrev VF : Reg := 15

end Sys2Proof
end

