-- ==== Sys2Proof/Config.lean ====
section
/-! DEFINITION. The named parameters of spec/00_scope.md R8: the font and the largest ROM, which the host's
load takes as arguments, and the random source, which is a free value. -/

namespace Sys2Proof

/-- A font: 16 glyphs of 5 bytes each (spec/70_reset_and_hazards.md R272). -/
abbrev Font := Vector (Vector Byte 5) 16

/-- The parameters FONT and ROM_MAX of spec/00_scope.md R8. A ROM of more than 0xE00 bytes does not fit between
0x200 and the end of memory, so no choice of ROM_MAX is larger. -/
structure Params where
  /-- The 80 bytes copied to 0x000..0x04F at reset. -/
  font : Font
  /-- The largest ROM, in bytes, that load_rom accepts. -/
  romMax : Fin 0xE01
  deriving DecidableEq, Repr

/-- RAND: the byte that the k-th executed RNDMSK draws (spec/00_scope.md R8, spec/92_eei_decisions.md D19).
A free value: it has no body, so nothing can be proved about it but what holds of every source of bytes.
DESIGN CHOICE (log 2): the draws are numbered by State.draws. Safe. -/
opaque Config.randByte : Nat → Byte

end Sys2Proof
end

