-- ==== Sys2Proof/Syntax.lean ====
section
/-! DEFINITION. The 34 instructions of spec/30_encoding.md R96, under the constructor names of R95. -/

namespace Sys2Proof

/-- One instruction. `x` and `y` are register numbers, `nn` a byte literal, `nnn` a 12-bit address literal and
`n` the row count of SPRITE (spec/30_encoding.md R92, R93). -/
inductive Instr where
  /-- 00E0, CLS. -/
  | cls
  /-- 00EE, RTS. -/
  | rts
  /-- 1NNN, JUMP $nnn. -/
  | jump (nnn : BitVec 12)
  /-- 2NNN, CALL $nnn. -/
  | call (nnn : BitVec 12)
  /-- 3XNN, SKIP.EQ Vx,#$nn. -/
  | skipEqImm (x : Reg) (nn : Byte)
  /-- 4XNN, SKIP.NE Vx,#$nn. -/
  | skipNeImm (x : Reg) (nn : Byte)
  /-- 5XY0, SKIP.EQ Vx,Vy. -/
  | skipEqReg (x y : Reg)
  /-- 6XNN, MVI Vx,#$nn. -/
  | movImm (x : Reg) (nn : Byte)
  /-- 7XNN, ADI Vx,#$nn. -/
  | addImm (x : Reg) (nn : Byte)
  /-- 8XY0, MOV. Vx,Vy. -/
  | mov (x y : Reg)
  /-- 8XY1, OR. Vx,Vy. -/
  | or (x y : Reg)
  /-- 8XY2, AND. Vx,Vy. -/
  | and (x y : Reg)
  /-- 8XY3, XOR. Vx,Vy. -/
  | xor (x y : Reg)
  /-- 8XY4, ADD. Vx,Vy. -/
  | add (x y : Reg)
  /-- 8XY5, SUB. Vx,Vy. -/
  | sub (x y : Reg)
  /-- 8XY6, SHR. Vx. The y field is kept and ignored (spec/30_encoding.md R99). -/
  | shr (x y : Reg)
  /-- 8XY7, SUBB. Vx,Vy. -/
  | subb (x y : Reg)
  /-- 8XYE, SHL. Vx. The y field is kept and ignored (spec/30_encoding.md R99). -/
  | shl (x y : Reg)
  /-- 9XY0, SKIP.NE Vx,Vy. -/
  | skipNeReg (x y : Reg)
  /-- ANNN, MVI I,#$nnn. -/
  | setI (nnn : BitVec 12)
  /-- BNNN, JUMP $nnn(V0). -/
  | jumpPlusV0 (nnn : BitVec 12)
  /-- CXNN, RNDMSK Vx,#$nn. -/
  | randAnd (x : Reg) (nn : Byte)
  /-- DXYN, SPRITE Vx,Vy,#$n. -/
  | draw (x y : Reg) (n : Nat)
  /-- EX9E, SKIPKEY.Y Vx. -/
  | skipKey (x : Reg)
  /-- EXA1, SKIPKEY.N Vx. -/
  | skipNoKey (x : Reg)
  /-- FX07, MOV Vx,DELAY. -/
  | getDelay (x : Reg)
  /-- FX0A, WAITKEY Vx. -/
  | getKey (x : Reg)
  /-- FX15, MOV DELAY,Vx. -/
  | setDelay (x : Reg)
  /-- FX18, MOV SOUND,Vx. -/
  | setSound (x : Reg)
  /-- FX1E, ADI I,Vx. -/
  | addI (x : Reg)
  /-- FX29, SPRITECHAR Vx. -/
  | spriteChar (x : Reg)
  /-- FX33, MOVBCD Vx. -/
  | movBcd (x : Reg)
  /-- FX55, MOVM (I),V0-Vx. -/
  | regDump (x : Reg)
  /-- FX65, MOVM V0-Vx,(I). -/
  | regLoad (x : Reg)
  deriving DecidableEq, Repr

end Sys2Proof
end

