-- ==== Sys2Proof/Machine/State.lean ====
section
/-! DEFINITION. The whole state of the core (spec/10_state.md R30), the reasons a step can stop, and the state
after reset (R46). -/

namespace Sys2Proof.Machine

/-- The causes of a MachineFault (spec/60_exceptions.md R234). -/
inductive FaultCause where
  /-- Code 1: the fetch at the start of a step has PC > 0xFFE. -/
  | fetchOutOfRange
  /-- Code 2: CALL with SP = 16. -/
  | stackOverflow
  /-- Code 3: RTS with SP = 0. -/
  | stackUnderflow
  /-- Code 4: SPRITE (n >= 1), MOVBCD or MOVM with an access above 0xFFF. -/
  | dataOutOfRange
  /-- Code 5: SKIPKEY.Y or SKIPKEY.N with V[x] > 0xF. -/
  | keyIndexOutOfRange
  deriving DecidableEq, Repr

/-- `status` (spec/10_state.md R43): Running, or Faulted(cause, info). -/
inductive Status where
  /-- Running. -/
  | running
  /-- Faulted(cause, info): set by the step that raised the MachineFault, cleared by load_rom alone. -/
  | faulted (cause : FaultCause) (info : Word)
  deriving DecidableEq, Repr

/-- Why a step answers an error and no next state. Each one is an outcome the spec gives the step
(spec/60_exceptions.md R230), in which the state stays exactly as it was (R232, R240; log 4). -/
inductive Fault where
  /-- DecodeError(byte1, byte2): raised by every step whose fetched word is illegal (spec/60_exceptions.md
  R232). No state changes and the status stays Running. Safe: the step answers no next state. -/
  | decodeError (byte1 byte2 : Byte)
  /-- The recorded MachineFault again: raised by a step taken while the status is Faulted
  (spec/60_exceptions.md R240). No state changes. The step that FIRST raises a MachineFault is a next state, the
  one with the status set. Safe: the step answers no next state. -/
  | machineFault (cause : FaultCause) (info : Word)
  deriving DecidableEq, Repr

/-- Why a step is refused. No instruction is. -/
inductive Refusal where
  /-- Raised by an arm of exec that has no meaning yet; no arm is one. Safe. -/
  | notModelled (mnemonic : String)
  deriving DecidableEq, Repr

/-- The bytes of memory that differ from what an unlisted address reads as (`background` in Machine/Font.lean),
by rising address. `Memory.wf` in Machine/Ops.lean is that form. -/
abbrev Memory := List Host.Cell

/-- The state of the core (spec/10_state.md R30). -/
structure State where
  /-- V0 to VF, VF being the flag register too (R31, R32). -/
  v : Vector Byte 16
  /-- The index register I (R34). -/
  i : Word
  /-- The program counter: the address of the instruction being executed (R35). -/
  pc : Word
  /-- The 16 entries of the call stack; a popped entry keeps its value (R37). -/
  stack : Vector Word 16
  /-- SP, the number of entries in use, 0 to 16 (R38). -/
  sp : Fin 17
  /-- DT, the delay timer (R39). -/
  dt : Byte
  /-- ST, the sound timer (R40). -/
  st : Byte
  /-- The 16 keys, true when pressed (R41). -/
  keypad : Vector Bool 16
  /-- Running, or Faulted(cause, info) (R43). -/
  status : Status
  /-- Memory; its bytes 0xF00..0xFFF are the framebuffer (R42). -/
  mem : Memory
  /-- The model's own: how many RAND bytes have been drawn, so that each RNDMSK draws a fresh free value (log 2).
  No rule of the spec reads it. -/
  draws : Nat
  deriving DecidableEq, Repr

/-- What an instruction or a step answers. -/
abbrev Result := Host.Outcome State Fault Refusal

/-- The reset state (spec/10_state.md R46) with an empty ROM, which is the power-on state
(spec/70_reset_and_hazards.md R271): memory holds the font and zeros and so lists nothing. -/
def State.reset : State where
  v := Vector.replicate 16 0
  i := 0
  pc := 0x200
  stack := Vector.replicate 16 0
  sp := 0
  dt := 0
  st := 0
  keypad := Vector.replicate 16 false
  status := .running
  mem := []
  draws := 0

end Sys2Proof.Machine
end

