-- ==== Sys2Proof/Machine/Font.lean ====
section
/-! DEFINITION. The default of the parameter FONT, and what a byte of memory that the state does not list reads as. -/

namespace Sys2Proof.Machine

/-- The standard CHIP-8 font, the default of FONT (spec/70_reset_and_hazards.md R272).
PRESUMED (log 1): the spec takes these bytes from general knowledge. Unsafe for a claim that reads them. -/
def defaultFont : Font := #v[
  #v[0xF0, 0x90, 0x90, 0x90, 0xF0],
  #v[0x20, 0x60, 0x20, 0x20, 0x70],
  #v[0xF0, 0x10, 0xF0, 0x80, 0xF0],
  #v[0xF0, 0x10, 0xF0, 0x10, 0xF0],
  #v[0x90, 0x90, 0xF0, 0x10, 0x10],
  #v[0xF0, 0x80, 0xF0, 0x10, 0xF0],
  #v[0xF0, 0x80, 0xF0, 0x90, 0xF0],
  #v[0xF0, 0x10, 0x20, 0x40, 0x40],
  #v[0xF0, 0x90, 0xF0, 0x90, 0xF0],
  #v[0xF0, 0x90, 0xF0, 0x10, 0xF0],
  #v[0xF0, 0x90, 0xF0, 0x90, 0x90],
  #v[0xE0, 0x90, 0xE0, 0x90, 0xE0],
  #v[0xF0, 0x80, 0x80, 0x80, 0xF0],
  #v[0xE0, 0x90, 0x90, 0x90, 0xE0],
  #v[0xF0, 0x80, 0xF0, 0x80, 0xF0],
  #v[0xF0, 0x80, 0xF0, 0x80, 0x80]]

/-- FONT[k]: byte k of a font, k = 0..79, with glyph d at 5*d (spec/70_reset_and_hazards.md R272). -/
def fontByte (font : Font) (k : Nat) : Byte :=
  if h : k < 80 then (font[k / 5]'(by omega))[k % 5]'(by omega) else 0

/-- The parameters FONT and ROM_MAX at the defaults of spec/00_scope.md R8 (logs 1 and 3). -/
def defaultParams : Params := ⟨defaultFont, 0xE00⟩

/-- What an unlisted address of memory reads as: the power-on contents (spec/10_state.md R46), which are the font
at 0x000..0x04F and 0 elsewhere, with FONT at its default (log 1). -/
def background (a : Nat) : Byte := fontByte defaultFont a

end Sys2Proof.Machine
end

