-- ==== Sys2Proof/Machine/Ops.lean ====
section
/-! DEFINITION. The named operations over memory, registers, stack and status, and the one operation that takes a
MachineFault. -/

namespace Sys2Proof.Machine

/-! ### Memory: one flat space of 4096 bytes (spec/20_memory.md R60) -/

/-- The canonical form of memory: addresses strictly rise, each is in 0x000..0xFFF, and no listed byte equals what
the address reads as unlisted. Equal memories are then equal lists. -/
abbrev Memory.wf (m : Memory) : Prop :=
  m.Pairwise (fun c d => c.1 < d.1) ∧ ∀ c ∈ m, c.1 < 0x1000 ∧ c.2 ≠ background c.1

/-- mem[a]. Every caller has checked the address (spec/20_memory.md R64). -/
def Memory.read (m : Memory) (a : Nat) : Byte :=
  match m.find? (fun c => c.1 == a) with
  | some c => c.2
  | none => background a

/-- Lists a byte before the first higher address. -/
def Memory.place (a : Nat) (b : Byte) : Memory → Memory
  | [] => [(a, b)]
  | c :: rest => if a < c.1 then (a, b) :: c :: rest else c :: Memory.place a b rest

/-- Takes an address off the list. -/
def Memory.unlist (m : Memory) (a : Nat) : Memory := m.filter (fun c => c.1 != a)

/-- mem[a] <- b, in canonical form: a byte equal to the address's unlisted value is not listed. -/
def Memory.write (m : Memory) (a : Nat) (b : Byte) : Memory :=
  if b = background a then m.unlist a else Memory.place a b (m.unlist a)

/-- The bytes mem[base], mem[base + 1], ... of n addresses. -/
def Memory.readBytes (m : Memory) (base n : Nat) : List Byte :=
  (List.range n).map fun k => m.read (base + k)

/-- mem[base + k] <- bytes[k], in ascending order. -/
def Memory.writeBytes (m : Memory) (base : Nat) : List Byte → Memory
  | [] => m
  | b :: rest => Memory.writeBytes (m.write base b) (base + 1) rest

/-- The check that comes before an access to n bytes from base (spec/20_memory.md R64, R65): none when every
address is in 0x000..0xFFF, else the first one that is not, max(base, 0x1000). -/
def firstOutOfRange (base n : Nat) : Option Nat :=
  if n = 0 ∨ base + n ≤ 0x1000 then none else some (max base 0x1000)

/-! ### Registers, stack and timers -/

/-- V[r] (spec/10_state.md R31). -/
def State.getV (s : State) (r : Reg) : Byte := s.v[r.val]

/-- V[r] <- b (spec/10_state.md R31). -/
def State.setV (s : State) (r : Reg) (b : Byte) : State := { s with v := s.v.set r.val b }

/-- I <- w; a value of 0x1000 or more is no fault (spec/10_state.md R34). -/
def State.setI (s : State) (w : Word) : State := { s with i := w }

/-- PC <- w; never checked when written (spec/10_state.md R36). -/
def State.setPc (s : State) (w : Word) : State := { s with pc := w }

/-- PC <- PC + 2, the default of every instruction (spec/00_scope.md R12). -/
def State.advance (s : State) : State := s.setPc (s.pc + 2)

/-- A skip moves PC by exactly 4, no skip by 2; the skipped word is not looked at (spec/41_control_flow.md
R149). -/
def State.skipIf (s : State) (c : Bool) : State := s.setPc (if c then s.pc + 4 else s.pc + 2)

/-- DT <- b (spec/10_state.md R39). -/
def State.setDelay (s : State) (b : Byte) : State := { s with dt := b }

/-- ST <- b (spec/10_state.md R40). -/
def State.setSound (s : State) (b : Byte) : State := { s with st := b }

/-- The state with another memory. -/
def State.setMem (s : State) (m : Memory) : State := { s with mem := m }

/-- stack[SP] <- w, then SP <- SP + 1; none when SP = 16 (spec/10_state.md R38). -/
def State.push (s : State) (w : Word) : Option State :=
  if h : s.sp.val < 16 then
    some { s with stack := s.stack.set s.sp.val w, sp := ⟨s.sp.val + 1, by omega⟩ }
  else none

/-- SP <- SP - 1, then stack[SP]; none when SP = 0. The popped entry keeps its value (spec/10_state.md R37,
R38). -/
def State.pop (s : State) : Option (Word × State) :=
  if h : 0 < s.sp.val then
    some (s.stack[s.sp.val - 1]'(by omega), { s with sp := ⟨s.sp.val - 1, by omega⟩ })
  else none

/-- keypad[k] (spec/10_state.md R41). Every caller has k in 0..15. -/
def State.keyDown (s : State) (k : Nat) : Bool := if h : k < 16 then s.keypad[k] else false

/-- RAND(): one fresh byte, and the state that has counted it (spec/42_alu.md R172; log 2). -/
def State.drawByte (s : State) : Byte × State := (Config.randByte s.draws, { s with draws := s.draws + 1 })

/-! ### Taking a MachineFault -/

/-- The entry of a MachineFault (spec/60_exceptions.md R236, R239): status <- Faulted(cause, info), and nothing
else. No register saves anything, no mode changes and PC stays. There is no return beside it: only load_rom clears
the status (R240; `State.loadRom` in Machine/HostInterface.lean). -/
def State.enterFault (s : State) (cause : FaultCause) (info : Word) : State :=
  { s with status := .faulted cause info }

/-- raise MachineFault(cause, info). Given the state before the instruction, it discards every write of the step
(spec/00_scope.md R11, spec/60_exceptions.md R236). DESIGN CHOICE (log 4): the entry is a next state, whose status
holds the fault. Safe. -/
def raise (s : State) (cause : FaultCause) (info : Word) : Result := .next (s.enterFault cause info)

/-- Runs an access to n bytes from base, or raises DataOutOfRange with the first address out of range
(spec/20_memory.md R65). `done` is the state after the access. -/
def checkedAccess (s : State) (base n : Nat) (done : State) : Result :=
  match firstOutOfRange base n with
  | some a => raise s .dataOutOfRange (BitVec.ofNat 16 a)
  | none => .next done

end Sys2Proof.Machine
end

