-- ==== Sys2Proof/Machine/Operands.lean ====
section
/-! DEFINITION. The operand forms: literals and register values as they meet PC, I and memory addresses
(spec/30_encoding.md R94, spec/43_index_memory.md R189). -/

namespace Sys2Proof.Machine

/-- zext_16 of an address literal, wherever it meets PC or I (spec/30_encoding.md R94). -/
def zextAddr (nnn : BitVec 12) : Word := BitVec.ofNat 16 nnn.toNat

/-- zext_16 of a register's byte (spec/41_control_flow.md R144, spec/43_index_memory.md R191). -/
def zextByte (b : Byte) : Word := BitVec.ofNat 16 b.toNat

/-- The first address of a data access, I as an unbounded integer: I + k is never wrapped (spec/20_memory.md
R64, spec/43_index_memory.md R189). -/
def State.base (s : State) : Nat := s.i.toNat

/-- The key that V[x] names, none when V[x] > 0xF (spec/44_keypad_timers.md R210). -/
def State.keyOperand (s : State) (x : Reg) : Option Nat :=
  if (s.getV x).toNat ≤ 0xF then some (s.getV x).toNat else none

/-- The decimal digits hundreds, tens and ones of a byte (spec/43_index_memory.md R193). -/
def bcdDigits (b : Byte) : List Byte :=
  [BitVec.ofNat 8 (b.toNat / 100), BitVec.ofNat 8 (b.toNat / 10 % 10), BitVec.ofNat 8 (b.toNat % 10)]

/-- The bytes V[0], V[1], ..., V[x] (spec/43_index_memory.md R194). -/
def State.regsUpTo (s : State) (x : Reg) : List Byte := s.v.toList.take (x.val + 1)

/-- V[k] <- mem[base + k] for k = 0 .. count - 1, in ascending order (spec/43_index_memory.md R195). -/
def loadRegs (m : Memory) (base : Nat) : Nat → Vector Byte 16 → Vector Byte 16
  | 0, v => v
  | count + 1, v => (loadRegs m base count v).setIfInBounds count (m.read (base + count))

/-- The state with V[0]..V[x] loaded from memory at base. -/
def State.loadRegsUpTo (s : State) (x : Reg) : State :=
  { s with v := loadRegs s.mem s.base (x.val + 1) s.v }

/-- The first pressed key, scanning 0x0..0xF in ascending order (spec/44_keypad_timers.md R213). -/
def State.firstPressed (s : State) : Option Nat := (List.range 16).find? s.keyDown

end Sys2Proof.Machine
end

