-- ==== Sys2Proof/Machine/Flags.lean ====
section
/-! DEFINITION. The results and flags of the ALU (spec/42_alu.md R160, R174): each is the exact integer result,
narrowed at the end, and the flag compares the exact operands. -/

namespace Sys2Proof.Machine

/-- b2i, as a byte (spec/00_scope.md R10). -/
def flagByte (b : Bool) : Byte := if b then 1 else 0

/-- trunc_8(a + b) (spec/42_alu.md R167). -/
def addBytes (a b : Byte) : Byte := BitVec.ofNat 8 (a.toNat + b.toNat)

/-- The carry of a + b: the sum is above 255 (spec/42_alu.md R167). -/
def addCarry (a b : Byte) : Bool := decide (a.toNat + b.toNat > 255)

/-- trunc_8(a - b + 256) (spec/42_alu.md R168). -/
def subBytes (a b : Byte) : Byte := BitVec.ofNat 8 (a.toNat + 256 - b.toNat)

/-- No borrow in a - b: a >= b (spec/42_alu.md R168). -/
def noBorrow (a b : Byte) : Bool := decide (b.toNat ≤ a.toNat)

/-- The bit that a right shift by one moves out: bit 0 (spec/42_alu.md R169). -/
def shiftOutRight (a : Byte) : Byte := a &&& 0x01

/-- V[x] >> 1 (spec/42_alu.md R169). -/
def shiftRight (a : Byte) : Byte := a >>> 1

/-- The bit that a left shift by one moves out: bit 7 (spec/42_alu.md R171). -/
def shiftOutLeft (a : Byte) : Byte := a >>> 7

/-- trunc_8(V[x] << 1) (spec/42_alu.md R171). -/
def shiftLeft (a : Byte) : Byte := a <<< 1

/-- V[x] <- result, then VF <- flag: the flag is written last, so it survives in VF when x = 15
(spec/42_alu.md R160). -/
def State.setResultAndFlag (s : State) (x : Reg) (result : Byte) (flag : Bool) : State :=
  (s.setV x result).setV VF (flagByte flag)

end Sys2Proof.Machine
end

