-- ==== Sys2Proof/Machine/Alu.lean ====
section
/-! DEFINITION. Register moves, ALU and RNDMSK (spec/42_alu.md). Register operands are read before any register is
written (R160). -/

namespace Sys2Proof.Machine

/-- MVI Vx,#$nn (spec/42_alu.md R161). -/
def execMovImm (x : Reg) (nn : Byte) (s : State) : Result := .next (s.setV x nn).advance

/-- ADI Vx,#$nn: wraps, and writes no flag (spec/42_alu.md R162). -/
def execAddImm (x : Reg) (nn : Byte) (s : State) : Result :=
  .next (s.setV x (addBytes (s.getV x) nn)).advance

/-- MOV. Vx,Vy (spec/42_alu.md R163). -/
def execMov (x y : Reg) (s : State) : Result := .next (s.setV x (s.getV y)).advance

/-- OR. Vx,Vy (spec/42_alu.md R164). -/
def execOr (x y : Reg) (s : State) : Result := .next (s.setV x (s.getV x ||| s.getV y)).advance

/-- AND. Vx,Vy (spec/42_alu.md R165). -/
def execAnd (x y : Reg) (s : State) : Result := .next (s.setV x (s.getV x &&& s.getV y)).advance

/-- XOR. Vx,Vy (spec/42_alu.md R166). -/
def execXor (x y : Reg) (s : State) : Result := .next (s.setV x (s.getV x ^^^ s.getV y)).advance

/-- ADD. Vx,Vy: VF <- carry (spec/42_alu.md R167). -/
def execAdd (x y : Reg) (s : State) : Result :=
  .next (s.setResultAndFlag x (addBytes (s.getV x) (s.getV y)) (addCarry (s.getV x) (s.getV y))).advance

/-- SUB. Vx,Vy: Vx minus Vy, VF <- no borrow (spec/42_alu.md R168). -/
def execSub (x y : Reg) (s : State) : Result :=
  .next (s.setResultAndFlag x (subBytes (s.getV x) (s.getV y)) (noBorrow (s.getV x) (s.getV y))).advance

/-- SUBB. Vx,Vy: Vy minus Vx, VF <- no borrow (spec/42_alu.md R170). -/
def execSubb (x y : Reg) (s : State) : Result :=
  .next (s.setResultAndFlag x (subBytes (s.getV y) (s.getV x)) (noBorrow (s.getV y) (s.getV x))).advance

/-- SHR. Vx: VF gets the bit shifted out first, then the register is shifted as it stands. y is ignored
(spec/42_alu.md R169). -/
def execShr (x _y : Reg) (s : State) : Result :=
  let captured := s.setV VF (shiftOutRight (s.getV x))
  .next (captured.setV x (shiftRight (captured.getV x))).advance

/-- SHL. Vx: VF gets the bit shifted out first, then the register is shifted as it stands. y is ignored
(spec/42_alu.md R171). -/
def execShl (x _y : Reg) (s : State) : Result :=
  let captured := s.setV VF (shiftOutLeft (s.getV x))
  .next (captured.setV x (shiftLeft (captured.getV x))).advance

/-- RNDMSK Vx,#$nn: a fresh RAND byte AND nn (spec/42_alu.md R172). The byte is a free value (log 2). -/
def execRandAnd (x : Reg) (nn : Byte) (s : State) : Result :=
  .next (s.drawByte.2.setV x (s.drawByte.1 &&& nn)).advance

end Sys2Proof.Machine
end

