-- ==== Sys2Proof/Machine/ControlFlow.lean ====
section
/-! DEFINITION. Control transfer and skips (spec/41_control_flow.md). A target is never checked when it is written
(R140). -/

namespace Sys2Proof.Machine

/-- CALL $nnn: pushes PC + 2, then jumps; StackOverflow when SP = 16 (spec/41_control_flow.md R141). -/
def execCall (nnn : BitVec 12) (s : State) : Result :=
  match s.push (s.pc + 2) with
  | some t => .next (t.setPc (zextAddr nnn))
  | none => raise s .stackOverflow s.pc

/-- JUMP $nnn (spec/41_control_flow.md R142). -/
def execJump (nnn : BitVec 12) (s : State) : Result := .next (s.setPc (zextAddr nnn))

/-- RTS: PC <- the popped entry; StackUnderflow when SP = 0 (spec/41_control_flow.md R143). -/
def execRts (s : State) : Result :=
  match s.pop with
  | some (target, t) => .next (t.setPc target)
  | none => raise s .stackUnderflow s.pc

/-- JUMP $nnn(V0): the sum is not masked to 12 bits (spec/41_control_flow.md R144). -/
def execJumpPlusV0 (nnn : BitVec 12) (s : State) : Result :=
  .next (s.setPc (zextAddr nnn + zextByte (s.getV 0)))

/-- SKIP.EQ Vx,#$nn (spec/41_control_flow.md R145). -/
def execSkipEqImm (x : Reg) (nn : Byte) (s : State) : Result := .next (s.skipIf (s.getV x == nn))

/-- SKIP.NE Vx,#$nn (spec/41_control_flow.md R146). -/
def execSkipNeImm (x : Reg) (nn : Byte) (s : State) : Result := .next (s.skipIf (s.getV x != nn))

/-- SKIP.EQ Vx,Vy (spec/41_control_flow.md R147). -/
def execSkipEqReg (x y : Reg) (s : State) : Result := .next (s.skipIf (s.getV x == s.getV y))

/-- SKIP.NE Vx,Vy (spec/41_control_flow.md R148). -/
def execSkipNeReg (x y : Reg) (s : State) : Result := .next (s.skipIf (s.getV x != s.getV y))

end Sys2Proof.Machine
end

