-- ==== Sys2Proof/Machine/Display.lean ====
section
/-! DEFINITION. CLS, SPRITE and the collision detector (spec/40_display.md). The framebuffer is
mem[0xF00..0xFFF] (R120). -/

namespace Sys2Proof.Machine

/-- The address of the byte that holds pixel (x, y) (spec/20_memory.md R62). -/
def pixelAddress (x y : Nat) : Nat := 0xF00 + (y * 64 + x) / 8

/-- The bit of that byte (spec/20_memory.md R62). -/
def pixelMask (x y : Nat) : Byte := 0x80#8 >>> ((y * 64 + x) % 8)

/-- FB(x, y), the pixel at column x and row y (spec/40_display.md R121). -/
def Memory.pixel (m : Memory) (x y : Nat) : Bool := m.read (pixelAddress x y) &&& pixelMask x y != 0

/-- XorPixel(x, y): whether the pixel was set, and memory with it toggled (spec/40_display.md R122). -/
def Memory.xorPixel (m : Memory) (x y : Nat) : Bool × Memory :=
  (m.pixel x y, m.write (pixelAddress x y) (m.read (pixelAddress x y) ^^^ pixelMask x y))

/-- Bit 7 - c of a sprite row's byte, the one that column c shows (spec/40_display.md R125). -/
def spriteBit (b : Byte) (c : Nat) : Bool := b &&& (0x80#8 >>> c) != 0

/-- One column of a row: toggles its pixel when the sprite's bit is set, and notes a collision
(spec/40_display.md R124). The coordinates wrap (R126). -/
def plotColumn (b : Byte) (x y : Nat) (acc : Bool × Memory) (c : Nat) : Bool × Memory :=
  if spriteBit b c then
    let toggled := acc.2.xorPixel ((x + c) % 64) (y % 32)
    (acc.1 || toggled.1, toggled.2)
  else acc

/-- The eight columns of the row at y, from column x (spec/40_display.md R124). -/
def plotRow (b : Byte) (x y : Nat) (acc : Bool × Memory) : Bool × Memory :=
  (List.range 8).foldl (plotColumn b x y) acc

/-- Row r of a sprite at base: its byte is read after rows 0..r-1 are plotted (spec/40_display.md R129). -/
def drawRow (base x y : Nat) (acc : Bool × Memory) (r : Nat) : Bool × Memory :=
  plotRow (acc.2.read (base + r)) x (y + r) acc

/-- The rows 0 .. n-1 of a sprite: whether any set pixel was unset, and memory after (spec/40_display.md R124). -/
def drawRows (base x y n : Nat) (m : Memory) : Bool × Memory :=
  (List.range n).foldl (drawRow base x y) (false, m)

/-- mem[a] <- 0x00 for a in 0xF00..0xFFF (spec/40_display.md R123): those addresses read 0 when unlisted, so they
are taken off the list. Laws/Display.lean proves it equal to the 256 writes of 0, one after the other. -/
def clearFramebuffer (m : Memory) : Memory := m.filter fun c => !(decide (0xF00 ≤ c.1) && decide (c.1 < 0x1000))

/-- CLS: zeroes the 256 framebuffer bytes (spec/40_display.md R123). -/
def execCls (s : State) : Result := .next (s.setMem (clearFramebuffer s.mem)).advance

/-- SPRITE Vx,Vy,#$n: both coordinates are read before VF is written, every sprite byte is range-checked before
any write, and VF gets the collision (spec/40_display.md R124, R127, R128). -/
def execDraw (x y : Reg) (n : Nat) (s : State) : Result :=
  let drawn := drawRows s.base (s.getV x).toNat (s.getV y).toNat n s.mem
  checkedAccess s s.base n ((s.setMem drawn.2).setV VF (flagByte drawn.1)).advance

end Sys2Proof.Machine
end

