-- ==== Sys2Proof/Machine/IndexMemory.lean ====
section
/-! DEFINITION. Index register and memory instructions (spec/43_index_memory.md). No access changes I (R189). -/

namespace Sys2Proof.Machine

/-- MVI I,#$nnn (spec/43_index_memory.md R190). -/
def execSetI (nnn : BitVec 12) (s : State) : Result := .next (s.setI (zextAddr nnn)).advance

/-- ADI I,Vx: wraps at 16 bits, and writes no flag (spec/43_index_memory.md R191). -/
def execAddI (x : Reg) (s : State) : Result := .next (s.setI (s.i + zextByte (s.getV x))).advance

/-- SPRITECHAR Vx: I <- 5 * V[x], the whole register, not its low nibble (spec/43_index_memory.md R192). -/
def execSpriteChar (x : Reg) (s : State) : Result :=
  .next (s.setI (BitVec.ofNat 16 ((s.getV x).toNat * 5))).advance

/-- MOVBCD Vx: the three decimal digits of V[x] to mem[I..I+2] (spec/43_index_memory.md R193). -/
def execMovBcd (x : Reg) (s : State) : Result :=
  checkedAccess s s.base 3 (s.setMem (s.mem.writeBytes s.base (bcdDigits (s.getV x)))).advance

/-- MOVM (I),V0-Vx: V[0]..V[x] to mem[I..I+x] (spec/43_index_memory.md R194). -/
def execRegDump (x : Reg) (s : State) : Result :=
  checkedAccess s s.base (x.val + 1) (s.setMem (s.mem.writeBytes s.base (s.regsUpTo x))).advance

/-- MOVM V0-Vx,(I): mem[I..I+x] to V[0]..V[x] (spec/43_index_memory.md R195). -/
def execRegLoad (x : Reg) (s : State) : Result :=
  checkedAccess s s.base (x.val + 1) (s.loadRegsUpTo x).advance

end Sys2Proof.Machine
end

