-- ==== Sys2Proof/Machine/KeypadTimers.lean ====
section
/-! DEFINITION. Keypad and timer instructions (spec/44_keypad_timers.md). The keypad is read as it stands when the
step runs (R216). -/

namespace Sys2Proof.Machine

/-- SKIPKEY.Y Vx: skips if the key is pressed; KeyIndexOutOfRange when V[x] > 0xF
(spec/44_keypad_timers.md R210). -/
def execSkipKey (x : Reg) (s : State) : Result :=
  match s.keyOperand x with
  | some k => .next (s.skipIf (s.keyDown k))
  | none => raise s .keyIndexOutOfRange (zextByte (s.getV x))

/-- SKIPKEY.N Vx: skips if the key is not pressed; KeyIndexOutOfRange when V[x] > 0xF
(spec/44_keypad_timers.md R211). -/
def execSkipNoKey (x : Reg) (s : State) : Result :=
  match s.keyOperand x with
  | some k => .next (s.skipIf (!s.keyDown k))
  | none => raise s .keyIndexOutOfRange (zextByte (s.getV x))

/-- MOV Vx,DELAY (spec/44_keypad_timers.md R212). -/
def execGetDelay (x : Reg) (s : State) : Result := .next (s.setV x s.dt).advance

/-- WAITKEY Vx: the lowest pressed key to V[x]; with no key pressed nothing changes, PC included
(spec/44_keypad_timers.md R213). -/
def execGetKey (x : Reg) (s : State) : Result :=
  match s.firstPressed with
  | some k => .next (s.setV x (BitVec.ofNat 8 k)).advance
  | none => .next s

/-- MOV DELAY,Vx (spec/44_keypad_timers.md R214). -/
def execSetDelay (x : Reg) (s : State) : Result := .next (s.setDelay (s.getV x)).advance

/-- MOV SOUND,Vx (spec/44_keypad_timers.md R215). -/
def execSetSound (x : Reg) (s : State) : Result := .next (s.setSound (s.getV x)).advance

end Sys2Proof.Machine
end

