-- ==== Sys2Proof/Decode.lean ====
section
/-! DEFINITION. The decoder of spec/30_encoding.md R95, and after it an encoder written from the patterns of R96.
Both work on the fields of R92: `bits w hi lo` is the field w[hi:lo] as an unsigned number (spec/00_scope.md R10).
The patterns are the spec's own general knowledge (spec/92_eei_decisions.md D2; log 11). -/

namespace Sys2Proof

/-- The field w[hi:lo] of a word, as an unsigned number (spec/00_scope.md R10). -/
def bits (w : Word) (hi lo : Nat) : Nat := w.toNat / 2 ^ lo % 2 ^ (hi - lo + 1)

/-- byte1 ++ byte2: the byte at the lower address is the high byte (spec/20_memory.md R66, R68). -/
def wordOf (byte1 byte2 : Byte) : Word := BitVec.ofNat 16 (byte1.toNat * 0x100 + byte2.toNat)

/-- byte1 of a word, w[15:8] (spec/00_scope.md R10). -/
def highByte (w : Word) : Byte := BitVec.ofNat 8 (bits w 15 8)

/-- byte2 of a word, w[7:0] (spec/00_scope.md R10). -/
def lowByte (w : Word) : Byte := BitVec.ofNat 8 (bits w 7 0)

/-- The register number that a 4-bit field names (spec/30_encoding.md R94). -/
def regOf (k : Nat) : Reg := Fin.ofNat 16 k

/-- What the decoder answers: an instruction, or DecodeError with the two offending bytes
(spec/30_encoding.md R95). -/
inductive Decoded where
  /-- The word spells this instruction. -/
  | instr (i : Instr)
  /-- The word spells no instruction: DecodeError(byte1, byte2). -/
  | decodeError (byte1 byte2 : Byte)
  deriving DecidableEq, Repr

/-- Group 0x0: exact words only (spec/30_encoding.md R95, R98). -/
def decodeGroup0 (w : Word) : Option Instr :=
  match w.toNat with
  | 0x00E0 => some .cls
  | 0x00EE => some .rts
  | _ => none

/-- Group 0x8: the register-register operations, selected by the low nibble (spec/30_encoding.md R95). -/
def decodeGroup8 (x y : Reg) (n : Nat) : Option Instr :=
  match n with
  | 0x0 => some (.mov x y)
  | 0x1 => some (.or x y)
  | 0x2 => some (.and x y)
  | 0x3 => some (.xor x y)
  | 0x4 => some (.add x y)
  | 0x5 => some (.sub x y)
  | 0x6 => some (.shr x y)
  | 0x7 => some (.subb x y)
  | 0xE => some (.shl x y)
  | _ => none

/-- Group 0xE: the keypad skips, selected by the low byte (spec/30_encoding.md R95). -/
def decodeGroupE (x : Reg) (nn : Nat) : Option Instr :=
  match nn with
  | 0x9E => some (.skipKey x)
  | 0xA1 => some (.skipNoKey x)
  | _ => none

/-- Group 0xF: timers, wait-for-key, index and memory operations, selected by the low byte
(spec/30_encoding.md R95). -/
def decodeGroupF (x : Reg) (nn : Nat) : Option Instr :=
  match nn with
  | 0x07 => some (.getDelay x)
  | 0x0A => some (.getKey x)
  | 0x15 => some (.setDelay x)
  | 0x18 => some (.setSound x)
  | 0x1E => some (.addI x)
  | 0x29 => some (.spriteChar x)
  | 0x33 => some (.movBcd x)
  | 0x55 => some (.regDump x)
  | 0x65 => some (.regLoad x)
  | _ => none

/-- The instruction that a word spells, if any: the high nibble selects the group (spec/30_encoding.md R91,
R95). -/
def decodeWord (w : Word) : Option Instr :=
  let x := regOf (bits w 11 8)
  let y := regOf (bits w 7 4)
  let n := bits w 3 0
  let nn : Byte := BitVec.ofNat 8 (bits w 7 0)
  let nnn : BitVec 12 := BitVec.ofNat 12 (bits w 11 0)
  match bits w 15 12 with
  | 0x0 => decodeGroup0 w
  | 0x1 => some (.jump nnn)
  | 0x2 => some (.call nnn)
  | 0x3 => some (.skipEqImm x nn)
  | 0x4 => some (.skipNeImm x nn)
  | 0x5 => if n = 0 then some (.skipEqReg x y) else none
  | 0x6 => some (.movImm x nn)
  | 0x7 => some (.addImm x nn)
  | 0x8 => decodeGroup8 x y n
  | 0x9 => if n = 0 then some (.skipNeReg x y) else none
  | 0xA => some (.setI nnn)
  | 0xB => some (.jumpPlusV0 nnn)
  | 0xC => some (.randAnd x nn)
  | 0xD => some (.draw x y n)
  | 0xE => decodeGroupE x (bits w 7 0)
  | 0xF => decodeGroupF x (bits w 7 0)
  | _ => none

/-- decode(byte1, byte2): total on every pair of bytes (spec/30_encoding.md R95). It depends on the bytes alone,
not on their address (R101). -/
def decode (byte1 byte2 : Byte) : Decoded :=
  match decodeWord (wordOf byte1 byte2) with
  | some i => .instr i
  | none => .decodeError byte1 byte2

/-- A word with an address literal: h, then nnn (spec/30_encoding.md R92). -/
def wordNNN (h : Nat) (nnn : BitVec 12) : Word := BitVec.ofNat 16 (h * 0x1000 + nnn.toNat)

/-- A word with a register and a byte: h, x, nn (spec/30_encoding.md R92). -/
def wordXNN (h : Nat) (x : Reg) (nn : Byte) : Word :=
  BitVec.ofNat 16 (h * 0x1000 + x.val * 0x100 + nn.toNat)

/-- A word with two registers and a nibble: h, x, y, n (spec/30_encoding.md R92). -/
def wordXYN (h : Nat) (x y : Reg) (n : Nat) : Word :=
  BitVec.ofNat 16 (h * 0x1000 + x.val * 0x100 + y.val * 0x10 + n)

/-- The word that spells an instruction, from the patterns of spec/30_encoding.md R96. -/
def encode : Instr → Word
  | .cls => 0x00E0
  | .rts => 0x00EE
  | .jump nnn => wordNNN 0x1 nnn
  | .call nnn => wordNNN 0x2 nnn
  | .skipEqImm x nn => wordXNN 0x3 x nn
  | .skipNeImm x nn => wordXNN 0x4 x nn
  | .skipEqReg x y => wordXYN 0x5 x y 0x0
  | .movImm x nn => wordXNN 0x6 x nn
  | .addImm x nn => wordXNN 0x7 x nn
  | .mov x y => wordXYN 0x8 x y 0x0
  | .or x y => wordXYN 0x8 x y 0x1
  | .and x y => wordXYN 0x8 x y 0x2
  | .xor x y => wordXYN 0x8 x y 0x3
  | .add x y => wordXYN 0x8 x y 0x4
  | .sub x y => wordXYN 0x8 x y 0x5
  | .shr x y => wordXYN 0x8 x y 0x6
  | .subb x y => wordXYN 0x8 x y 0x7
  | .shl x y => wordXYN 0x8 x y 0xE
  | .skipNeReg x y => wordXYN 0x9 x y 0x0
  | .setI nnn => wordNNN 0xA nnn
  | .jumpPlusV0 nnn => wordNNN 0xB nnn
  | .randAnd x nn => wordXNN 0xC x nn
  | .draw x y n => wordXYN 0xD x y n
  | .skipKey x => wordXNN 0xE x 0x9E
  | .skipNoKey x => wordXNN 0xE x 0xA1
  | .getDelay x => wordXNN 0xF x 0x07
  | .getKey x => wordXNN 0xF x 0x0A
  | .setDelay x => wordXNN 0xF x 0x15
  | .setSound x => wordXNN 0xF x 0x18
  | .addI x => wordXNN 0xF x 0x1E
  | .spriteChar x => wordXNN 0xF x 0x29
  | .movBcd x => wordXNN 0xF x 0x33
  | .regDump x => wordXNN 0xF x 0x55
  | .regLoad x => wordXNN 0xF x 0x65

/-- The instruction the decoder reads from a table row's word: the first byte in memory is w[15:8]
(spec/20_memory.md R66), and every bit above nbits is 0. -/
def decodeTableWord (nbits w : Nat) : Option Instr :=
  let word : Word := BitVec.ofNat 16 (w % 2 ^ nbits)
  match decode (highByte word) (lowByte word) with
  | .instr i => some i
  | .decodeError _ _ => none

/-- One row of spec/opcode_table.json: its mnemonic, and the fields (hi, lo, value) that it fixes. -/
structure OpcodeRow where
  /-- The row's mnemonic, as the table spells it. -/
  mnemonic : String
  /-- The fixed fields (hi, lo, value). -/
  fixed : List (Nat × Nat × Nat)
  deriving DecidableEq, Repr

/-- A word belongs to a row when every field the row fixes has its value. -/
def rowMatches (row : OpcodeRow) (w : Word) : Bool :=
  row.fixed.all fun f => bits w f.1 f.2.1 == f.2.2

/-- The first 12 rows of spec/opcode_table.json. -/
def opcodeTableLow : List OpcodeRow := [
  ⟨"CLS", [(15, 0, 0xE0)]⟩,
  ⟨"RTS", [(15, 0, 0xEE)]⟩,
  ⟨"JUMP__nnn", [(15, 12, 0x1)]⟩,
  ⟨"CALL__nnn", [(15, 12, 0x2)]⟩,
  ⟨"SKIP.EQ_Vx___nn", [(15, 12, 0x3)]⟩,
  ⟨"SKIP.NE_Vx___nn", [(15, 12, 0x4)]⟩,
  ⟨"SKIP.EQ_Vx_Vy", [(15, 12, 0x5), (3, 0, 0x0)]⟩,
  ⟨"MVI_Vx___nn", [(15, 12, 0x6)]⟩,
  ⟨"ADI_Vx___nn", [(15, 12, 0x7)]⟩,
  ⟨"MOV._Vx_Vy", [(15, 12, 0x8), (3, 0, 0x0)]⟩,
  ⟨"OR._Vx_Vy", [(15, 12, 0x8), (3, 0, 0x1)]⟩,
  ⟨"AND._Vx_Vy", [(15, 12, 0x8), (3, 0, 0x2)]⟩]

/-- The next 11 rows of spec/opcode_table.json. -/
def opcodeTableMid : List OpcodeRow := [
  ⟨"XOR._Vx_Vy", [(15, 12, 0x8), (3, 0, 0x3)]⟩,
  ⟨"ADD._Vx_Vy", [(15, 12, 0x8), (3, 0, 0x4)]⟩,
  ⟨"SUB._Vx_Vy", [(15, 12, 0x8), (3, 0, 0x5)]⟩,
  ⟨"SHR._Vx", [(15, 12, 0x8), (3, 0, 0x6)]⟩,
  ⟨"SUBB._Vx_Vy", [(15, 12, 0x8), (3, 0, 0x7)]⟩,
  ⟨"SHL._Vx", [(15, 12, 0x8), (3, 0, 0xE)]⟩,
  ⟨"SKIP.NE_Vx_Vy", [(15, 12, 0x9), (3, 0, 0x0)]⟩,
  ⟨"MVI_I___nnn", [(15, 12, 0xA)]⟩,
  ⟨"JUMP__nnn_V0", [(15, 12, 0xB)]⟩,
  ⟨"RNDMSK_Vx___nn", [(15, 12, 0xC)]⟩,
  ⟨"SPRITE_Vx_Vy___n", [(15, 12, 0xD)]⟩]

/-- The last 11 rows of spec/opcode_table.json. -/
def opcodeTableHigh : List OpcodeRow := [
  ⟨"SKIPKEY.Y_Vx", [(15, 12, 0xE), (7, 0, 0x9E)]⟩,
  ⟨"SKIPKEY.N_Vx", [(15, 12, 0xE), (7, 0, 0xA1)]⟩,
  ⟨"MOV_Vx_DELAY", [(15, 12, 0xF), (7, 0, 0x7)]⟩,
  ⟨"WAITKEY_Vx", [(15, 12, 0xF), (7, 0, 0xA)]⟩,
  ⟨"MOV_DELAY_Vx", [(15, 12, 0xF), (7, 0, 0x15)]⟩,
  ⟨"MOV_SOUND_Vx", [(15, 12, 0xF), (7, 0, 0x18)]⟩,
  ⟨"ADI_I_Vx", [(15, 12, 0xF), (7, 0, 0x1E)]⟩,
  ⟨"SPRITECHAR_Vx", [(15, 12, 0xF), (7, 0, 0x29)]⟩,
  ⟨"MOVBCD_Vx", [(15, 12, 0xF), (7, 0, 0x33)]⟩,
  ⟨"MOVM__I__V0-Vx", [(15, 12, 0xF), (7, 0, 0x55)]⟩,
  ⟨"MOVM_V0-Vx__I", [(15, 12, 0xF), (7, 0, 0x65)]⟩]

/-- The 34 rows of spec/opcode_table.json, in the table's order. -/
def opcodeTable : List OpcodeRow := opcodeTableLow ++ opcodeTableMid ++ opcodeTableHigh

end Sys2Proof
end

