-- ==== Sys2Proof/Machine/Fetch.lean ====
section
/-! DEFINITION. The front of a step: the status test, the fetch and the decoding (spec/60_exceptions.md R231), in
the order of R237. -/

namespace Sys2Proof.Machine

/-- The fetch: mem[PC] and mem[PC + 1], at any alignment, when PC <= 0xFFE (spec/20_memory.md R66, R69). -/
def State.fetchBytes (s : State) : Option (Byte × Byte) :=
  if s.pc.toNat ≤ 0xFFE then some (s.mem.read s.pc.toNat, s.mem.read (s.pc.toNat + 1)) else none

/-- What a step has to do next. -/
inductive NextAction where
  /-- The status is Faulted: return the recorded fault again (spec/60_exceptions.md R240). -/
  | halted (cause : FaultCause) (info : Word)
  /-- PC > 0xFFE (spec/20_memory.md R66). -/
  | fetchFault
  /-- The fetched word is illegal (spec/60_exceptions.md R232). -/
  | illegal (byte1 byte2 : Byte)
  /-- Execute this instruction. -/
  | run (i : Instr)
  deriving DecidableEq, Repr

/-- The first that applies of: status already Faulted, FetchOutOfRange, DecodeError, the instruction
(spec/60_exceptions.md R231, R237). -/
def State.nextAction (s : State) : NextAction :=
  match s.status with
  | .faulted cause info => .halted cause info
  | .running =>
    match s.fetchBytes with
    | none => .fetchFault
    | some (byte1, byte2) =>
      match decode byte1 byte2 with
      | .instr i => .run i
      | .decodeError b1 b2 => .illegal b1 b2

/-- The state with a word stored where the next fetch reads it, high byte first, and Running. A PC that no fetch
can use is moved to the entry point 0x200 (log 8). -/
def State.placeWord (s : State) (w : Word) : State :=
  let pc : Word := if s.pc.toNat ≤ 0xFFE then s.pc else 0x200
  { s with status := .running, pc := pc, mem := s.mem.writeBytes pc.toNat [highByte w, lowByte w] }

end Sys2Proof.Machine
end

