-- ==== Sys2Proof/Machine/Step.lean ====
section
/-! DEFINITION. One step of the core (spec/60_exceptions.md R231). -/

namespace Sys2Proof.Machine

/-- step(): fetch, decode and execute exactly one instruction (spec/60_exceptions.md R231). A MachineFault is a
next state whose status holds it; a step taken while Faulted, and an illegal word, answer a fault and leave the
state as it was (log 4). -/
def step (s : State) : Host.Outcome State Fault Refusal :=
  match s.nextAction with
  | .halted cause info => .fault (.machineFault cause info)
  | .fetchFault => raise s .fetchOutOfRange s.pc
  | .illegal byte1 byte2 => .fault (.decodeError byte1 byte2)
  | .run i => exec i s

/-- s with the instruction word w stored where step fetches its next instruction. Bits of w at nbits and above are
0. It stands for the host's load of a program (logs 6 and 8). -/
def State.withFetchWord (s : State) (nbits w : Nat) : State :=
  s.placeWord (BitVec.ofNat 16 (w % 2 ^ nbits))

end Sys2Proof.Machine
end

