-- ==== Sys2Proof/Machine/HostInterface.lean ====
section
/-! DEFINITION. The host's operations (spec/70_reset_and_hazards.md R276). Each runs to completion before the next
begins (spec/20_memory.md R72), so each is a function of the state, and none is part of a step (log 5). -/

namespace Sys2Proof.Machine

/-! ### Reset -/

/-- Memory with every byte 0 (the first loop of spec/70_reset_and_hazards.md R270). An unlisted address from 0x050
on reads as 0 already, so the font's addresses are the ones to write. -/
def zeroedMemory : Memory := Memory.writeBytes [] 0 (List.replicate 80 0)

/-- Memory after load_rom: zeros, then FONT at 0x000, then the ROM at 0x200 (spec/70_reset_and_hazards.md R270,
R273). -/
def loadedMemory (font : Font) (rom : List Byte) : Memory :=
  (zeroedMemory.writeBytes 0 ((List.range 80).map (fontByte font))).writeBytes 0x200 rom

/-- What load_rom returns. -/
inductive LoadReply where
  /-- Loaded. -/
  | loaded
  /-- LoadRejected: the ROM is longer than ROM_MAX. -/
  | loadRejected
  deriving DecidableEq, Repr

/-- load_rom(bytes): the core's reset, in any state, Faulted included (spec/70_reset_and_hazards.md R270). A ROM
above ROM_MAX is rejected with no change. The count of RAND draws is no state of the core and goes on (log 10). -/
def State.loadRom (p : Params) (rom : List Byte) (s : State) : LoadReply × State :=
  if rom.length > p.romMax.val then (.loadRejected, s)
  else (.loaded, { State.reset with mem := loadedMemory p.font rom, draws := s.draws })

/-! ### Timers and keypad -/

/-- tick(): both timers count down, each saturating at zero, in any status (spec/60_exceptions.md R250). -/
def State.tick (s : State) : State :=
  { s with dt := if s.dt = 0 then 0 else s.dt - 1, st := if s.st = 0 then 0 else s.st - 1 }

/-- set_keypad(state): replaces all 16 entries (spec/60_exceptions.md R252). -/
def State.setKeypad (s : State) (keys : Vector Bool 16) : State := { s with keypad := keys }

/-! ### Read accessors -/

/-- framebuffer(): the 256 bytes mem[0xF00..0xFFF], bit-packed (spec/20_memory.md R78). -/
def State.framebuffer (s : State) : List Byte := s.mem.readBytes 0xF00 256

/-- The same view with one byte per pixel, row after row, 1 where the pixel is on (spec/20_memory.md R78). -/
def State.framebufferPixels (s : State) : List Byte :=
  (List.range 2048).map fun p => flagByte (s.mem.pixel (p % 64) (p / 64))

/-- memory(): all 4096 bytes (spec/60_exceptions.md R258). pc(), registers() and the rest are State's fields. -/
def State.memoryBytes (s : State) : List Byte := s.mem.readBytes 0 0x1000

/-! ### The step as the host calls it -/

/-- What the call step() returns (spec/60_exceptions.md R230). -/
inductive StepReply where
  /-- One instruction completed, or WAITKEY found no key. -/
  | ok
  /-- DecodeError(byte1, byte2). -/
  | decodeError (byte1 byte2 : Byte)
  /-- MachineFault(cause, info). -/
  | machineFault (cause : FaultCause) (info : Word)
  /-- The model's own: step refused. No step does (log 4). -/
  | refused (r : Refusal)
  deriving DecidableEq, Repr

/-- What a completed step returns, read from the status it leaves (spec/60_exceptions.md R231). -/
def replyOf : Status → StepReply
  | .running => .ok
  | .faulted cause info => .machineFault cause info

/-- step() as a host operation: what it returns, and the state after it (spec/60_exceptions.md R231). -/
def hostStep (s : State) : StepReply × State :=
  match step s with
  | .next t => (replyOf t.status, t)
  | .fault (.decodeError byte1 byte2) => (.decodeError byte1 byte2, s)
  | .fault (.machineFault cause info) => (.machineFault cause info, s)
  | .refused r => (.refused r, s)

/-- The spec's numeric code of an error reply (spec/60_exceptions.md R234). -/
def StepReply.code : StepReply → Option Nat
  | .ok => none
  | .decodeError _ _ => some 0
  | .machineFault .fetchOutOfRange _ => some 1
  | .machineFault .stackOverflow _ => some 2
  | .machineFault .stackUnderflow _ => some 3
  | .machineFault .dataOutOfRange _ => some 4
  | .machineFault .keyIndexOutOfRange _ => some 5
  | .refused _ => none

/-! ### All of them -/

/-- The host operations (spec/70_reset_and_hazards.md R276). -/
inductive HostOp where
  /-- load_rom(bytes). -/
  | loadRom (rom : List Byte)
  /-- step(). -/
  | step
  /-- tick(). -/
  | tick
  /-- set_keypad(state). -/
  | setKeypad (keys : Vector Bool 16)
  /-- framebuffer(). -/
  | framebuffer
  /-- pc(), registers(), memory() and the rest of the state. -/
  | inspect
  deriving DecidableEq, Repr

/-- What a host operation returns. -/
inductive HostReply where
  /-- Of load_rom. -/
  | load (r : LoadReply)
  /-- Of step. -/
  | stepped (r : StepReply)
  /-- Of tick and set_keypad: nothing. -/
  | nothing
  /-- Of framebuffer. -/
  | bytes (bs : List Byte)
  /-- Of the diagnostic accessors (spec/60_exceptions.md R258). -/
  | state (s : State)
  deriving DecidableEq, Repr

/-- One host operation: what it returns, and the state after it (spec/70_reset_and_hazards.md R276). -/
def hostCall (p : Params) (op : HostOp) (s : State) : HostReply × State :=
  match op with
  | .loadRom rom => (.load (s.loadRom p rom).1, (s.loadRom p rom).2)
  | .step => (.stepped (hostStep s).1, (hostStep s).2)
  | .tick => (.nothing, s.tick)
  | .setKeypad keys => (.nothing, s.setKeypad keys)
  | .framebuffer => (.bytes s.framebuffer, s)
  | .inspect => (.state s, s)

/-- The state after a list of host operations, the first one first. -/
def hostRun (p : Params) : List HostOp → State → State
  | [], s => s
  | op :: rest, s => hostRun p rest (hostCall p op s).2

end Sys2Proof.Machine
end

