-- ==== Sys2Proof/WellFormed.lean ====
section
/-! DEFINITION. Which terms of Instr an instruction word can spell. -/

namespace Sys2Proof

/-- An instruction is well formed when some word spells it. Register numbers, byte literals and address literals
are bounded by their types; the row count of SPRITE is a count 0..15 (spec/30_encoding.md R94).
DESIGN CHOICE (log 9): the count is a natural number, checked here. Safe. -/
def Instr.wellFormed : Instr → Bool
  | .cls => true
  | .rts => true
  | .jump _ => true
  | .call _ => true
  | .skipEqImm _ _ => true
  | .skipNeImm _ _ => true
  | .skipEqReg _ _ => true
  | .movImm _ _ => true
  | .addImm _ _ => true
  | .mov _ _ => true
  | .or _ _ => true
  | .and _ _ => true
  | .xor _ _ => true
  | .add _ _ => true
  | .sub _ _ => true
  | .shr _ _ => true
  | .subb _ _ => true
  | .shl _ _ => true
  | .skipNeReg _ _ => true
  | .setI _ => true
  | .jumpPlusV0 _ => true
  | .randAnd _ _ => true
  | .draw _ _ n => decide (n ≤ 15)
  | .skipKey _ => true
  | .skipNoKey _ => true
  | .getDelay _ => true
  | .getKey _ => true
  | .setDelay _ => true
  | .setSound _ => true
  | .addI _ => true
  | .spriteChar _ => true
  | .movBcd _ => true
  | .regDump _ => true
  | .regLoad _ => true

end Sys2Proof
end

