-- ==== Sys2Proof/Safety.lean ====
section
/-! DEFINITION. The terms in which claims are made: what may change (frames), which fault a state raises, the
invariant, and where a test run ends. -/

namespace Sys2Proof.Machine

/-- The decoder reads this instruction from this word. -/
def Spells (w : Word) (i : Instr) : Prop := decode (highByte w) (lowByte w) = .instr i

/-! ### Frames -/

/-- What an instruction may write besides PC. Everything else is to stay. -/
structure Writes where
  /-- The general registers it may write. -/
  regs : Reg → Bool := fun _ => false
  /-- Whether it may write I. -/
  index : Bool := false
  /-- The stack entry it may write. -/
  stackEntry : Option Nat := none
  /-- Whether it may write SP. -/
  sp : Bool := false
  /-- Whether it may write DT. -/
  dt : Bool := false
  /-- Whether it may write ST. -/
  st : Bool := false
  /-- Whether it may consume a RAND byte. -/
  draws : Bool := false
  /-- The first address it may store to. -/
  memFrom : Nat := 0
  /-- How many addresses it may store to. -/
  memLen : Nat := 0

/-- From s to t nothing changes but PC and what `w` lists; the keypad and the status never do. -/
structure Frame (w : Writes) (s t : State) : Prop where
  regs : ∀ r, w.regs r = false → t.getV r = s.getV r
  index : w.index = false → t.i = s.i
  stack : ∀ k, (h : k < 16) → w.stackEntry ≠ some k → t.stack[k] = s.stack[k]
  sp : w.sp = false → t.sp = s.sp
  dt : w.dt = false → t.dt = s.dt
  st : w.st = false → t.st = s.st
  draws : w.draws = false → t.draws = s.draws
  mem : ∀ a, ¬ (w.memFrom ≤ a ∧ a < w.memFrom + w.memLen) → t.mem.read a = s.mem.read a
  keypad : t.keypad = s.keypad
  status : t.status = s.status

/-- Only the register x. -/
def onlyReg (x : Reg) : Writes where
  regs := fun r => r == x

/-- Only the register x and VF. -/
def regAndFlag (x : Reg) : Writes where
  regs := fun r => r == x || r == VF

/-- What each instruction writes (spec/10_state.md R33, R34, R37, R39, R40, spec/20_memory.md R67). -/
def writesOf (s : State) : Instr → Writes
  | .cls => { memFrom := 0xF00, memLen := 256 }
  | .rts => { sp := true }
  | .call _ => { stackEntry := some s.sp.val, sp := true }
  | .jump _ | .jumpPlusV0 _ | .skipEqImm _ _ | .skipNeImm _ _ | .skipEqReg _ _ | .skipNeReg _ _ => {}
  | .skipKey _ | .skipNoKey _ => {}
  | .movImm x _ | .addImm x _ | .mov x _ | .or x _ | .and x _ | .xor x _ => onlyReg x
  | .getDelay x | .getKey x => onlyReg x
  | .add x _ | .sub x _ | .subb x _ | .shr x _ | .shl x _ => regAndFlag x
  | .randAnd x _ => { regs := fun r => r == x, draws := true }
  | .setI _ | .addI _ | .spriteChar _ => { index := true }
  | .setDelay _ => { dt := true }
  | .setSound _ => { st := true }
  | .movBcd _ => { memFrom := s.base, memLen := 3 }
  | .regDump x => { memFrom := s.base, memLen := x.val + 1 }
  | .regLoad x => { regs := fun r => decide (r.val ≤ x.val) }
  | .draw _ _ _ => { regs := fun r => r == VF, memFrom := 0xF00, memLen := 256 }

/-! ### Faults -/

/-- The MachineFault that an instruction raises from its own execution (spec/60_exceptions.md R234, R235). -/
def raisedBy (s : State) : Instr → Option (FaultCause × Word)
  | .call _ => if s.sp.val = 16 then some (.stackOverflow, s.pc) else none
  | .rts => if s.sp.val = 0 then some (.stackUnderflow, s.pc) else none
  | .draw _ _ n =>
    if 1 ≤ n ∧ s.i.toNat + n - 1 > 0xFFF then some (.dataOutOfRange, BitVec.ofNat 16 (max s.i.toNat 0x1000))
    else none
  | .movBcd _ =>
    if s.i.toNat + 2 > 0xFFF then some (.dataOutOfRange, BitVec.ofNat 16 (max s.i.toNat 0x1000)) else none
  | .regDump x | .regLoad x =>
    if s.i.toNat + x.val > 0xFFF then some (.dataOutOfRange, BitVec.ofNat 16 (max s.i.toNat 0x1000)) else none
  | .skipKey x | .skipNoKey x =>
    if (s.getV x).toNat > 0xF then some (.keyIndexOutOfRange, BitVec.ofNat 16 (s.getV x).toNat) else none
  | .cls | .jump _ | .jumpPlusV0 _ | .skipEqImm _ _ | .skipNeImm _ _ | .skipEqReg _ _ | .skipNeReg _ _ => none
  | .movImm _ _ | .addImm _ _ | .mov _ _ | .or _ _ | .and _ _ | .xor _ _ => none
  | .add _ _ | .sub _ _ | .subb _ _ | .shr _ _ | .shl _ _ | .randAnd _ _ => none
  | .setI _ | .addI _ | .spriteChar _ => none
  | .getDelay _ | .getKey _ | .setDelay _ | .setSound _ => none

/-- The instruction whose word PC addresses, if a fetch can reach it and the word is legal. -/
def State.atPc (s : State) : Option Instr :=
  match s.fetchBytes with
  | none => none
  | some (byte1, byte2) =>
    match decode byte1 byte2 with
    | .instr i => some i
    | .decodeError _ _ => none

/-- The MachineFault that the fetch or the instruction at PC raises in this state, whatever the status. -/
def State.faultAtPc (s : State) : Option (FaultCause × Word) :=
  if s.pc.toNat > 0xFFE then some (.fetchOutOfRange, s.pc)
  else
    match s.atPc with
    | some i => raisedBy s i
    | none => none

/-! ### The invariant -/

/-- What holds of every state the host can reach: memory is in canonical form and inside the address space; no
rule wrote a PC above 0x10FE (spec/10_state.md R36); every stack entry is a PC + 2 of a fetched CALL, at most
0x1000 (spec/41_control_flow.md R141); and a recorded fault is precise, that is, PC still addresses what raised it
and the state still raises it (spec/60_exceptions.md R238). -/
structure Inv (s : State) : Prop where
  mem : s.mem.wf
  pc : s.pc.toNat ≤ 0x10FE
  stack : ∀ k, (h : k < 16) → (s.stack[k]).toNat ≤ 0x1000
  precise : ∀ cause info, s.status = .faulted cause info → s.faultAtPc = some (cause, info)

/-! ### Words that claims use -/

/-- Whether the row byte b of a sprite, drawn from column x at row y, covers pixel (px, py): one of its set bits
falls there (spec/40_display.md R124). -/
def rowCovers (b : Byte) (x y px py : Nat) : Bool :=
  py == y % 32 && (List.range 8).any fun c => (x + c) % 64 == px && spriteBit b c

/-- Executes a list of instructions, the first one first, while each answers a next state. -/
def execAll : List Instr → State → Option State
  | [], s => some s
  | i :: rest, s =>
    match exec i s with
    | .next t => execAll rest t
    | .fault _ => none
    | .refused _ => none

/-! ### The end of a test run -/

/-- Where a test run ends (spec/70_reset_and_hazards.md R280): at a JUMP to its own address, at an error outcome,
or at a WAITKEY while no key is pressed. It defines test runs, not the core. -/
def runEnds (s : State) : Bool :=
  match s.atPc with
  | some (.jump nnn) => zextAddr nnn == s.pc || (hostStep s).1 != .ok
  | some (.getKey _) => s.firstPressed == none || (hostStep s).1 != .ok
  | _ => (hostStep s).1 != .ok

end Sys2Proof.Machine
end

