-- ==== Sys2Proof/Certificates/Slice0/Obligations.lean ====
section
/-! DEFINITION. The statements about the model. A docstring says which sentence of the spec a statement formalises, and
names the decision or the log entry where the statement rests on one. -/

open Sys2Proof Sys2Proof.Machine

/-! ### Encoding -/

/-- Decoding the encoding of a well-formed instruction gives the instruction, operand for operand. The patterns
are the spec's general knowledge (92_eei_decisions.md D2; log 11). -/
def Obligations.DecodeOfEncodeIsTheInstruction : Prop :=
  ∀ i : Instr, i.wellFormed = true → decode (highByte (encode i)) (lowByte (encode i)) = .instr i

/-- Every legal word is the encoding of the instruction it decodes to, which is well formed: no two words spell one
instruction. The ignored y of SHR. and SHL. is kept (30_encoding.md section 3). -/
def Obligations.EncodeOfDecodeIsTheWord : Prop :=
  ∀ (byte1 byte2 : Byte) (i : Instr), decode byte1 byte2 = .instr i →
    i.wellFormed = true ∧ encode i = wordOf byte1 byte2

/-- The illegal words are exactly those of the table in 30_encoding.md section 3 (decisions D1 and D3): for them the
decoder answers the two bytes, for every other word an instruction. -/
def Obligations.IllegalWordsByGroup : Prop :=
  ∀ byte1 byte2 : Byte,
    let w := wordOf byte1 byte2
    let illegal : Prop :=
      (bits w 15 12 = 0x0 ∧ w ≠ 0x00E0 ∧ w ≠ 0x00EE) ∨
      (bits w 15 12 = 0x5 ∧ bits w 3 0 ≠ 0) ∨
      (bits w 15 12 = 0x8 ∧ bits w 3 0 ∈ [0x8, 0x9, 0xA, 0xB, 0xC, 0xD, 0xF]) ∨
      (bits w 15 12 = 0x9 ∧ bits w 3 0 ≠ 0) ∨
      (bits w 15 12 = 0xE ∧ bits w 7 0 ∉ [0x9E, 0xA1]) ∨
      (bits w 15 12 = 0xF ∧ bits w 7 0 ∉ [0x07, 0x0A, 0x15, 0x18, 0x1E, 0x29, 0x33, 0x55, 0x65])
    (illegal → decode byte1 byte2 = .decodeError byte1 byte2) ∧
    (¬ illegal → ∃ i, decode byte1 byte2 = .instr i)

/-- The eight words that the document itself gives decode as it says (30_encoding.md R97). -/
def Obligations.DocumentWordsDecode : Prop :=
  decode 0xA1 0x23 = .instr (.setI 0x123) ∧ decode 0xA3 0x00 = .instr (.setI 0x300) ∧
  decode 0x61 0x7B = .instr (.movImm 1 0x7B) ∧ decode 0xF1 0x33 = .instr (.movBcd 1) ∧
  decode 0xF1 0x0A = .instr (.getKey 1) ∧ decode 0xE0 0x00 = .decodeError 0xE0 0x00 ∧
  decode 0xFF 0xFF = .decodeError 0xFF 0xFF ∧ decode 0x50 0xF1 = .decodeError 0x50 0xF1

/-- The model's own (logs 6 and 8): a well-formed instruction placed where the next fetch reads runs at the very next
step, from any state. -/
def Obligations.PlacedInstructionRunsNext : Prop :=
  ∀ (i : Instr) (s : State), i.wellFormed = true →
    step (s.withFetchWord 16 (encode i).toNat) = exec i (s.withFetchWord 16 (encode i).toNat)

/-! ### The step and its outcomes -/

/-- When the bytes at PC decode to an instruction, a step of the running core is that instruction; nothing is added
around it (60_exceptions.md section 1). -/
def Obligations.StepRunsTheDecodedInstruction : Prop :=
  ∀ (s : State) (i : Instr), s.status = .running → s.pc.toNat ≤ 0xFFE →
    decode (s.mem.read s.pc.toNat) (s.mem.read (s.pc.toNat + 1)) = .instr i → step s = exec i s

/-- The step() of 60_exceptions.md R231, with what it returns and the state after it, in every case. -/
def Obligations.HostStepFollowsItsPseudocode : Prop :=
  ∀ s : State,
    (∀ cause info, s.status = .faulted cause info → hostStep s = (.machineFault cause info, s)) ∧
    (s.status = .running → 0xFFE < s.pc.toNat →
      hostStep s = (.machineFault .fetchOutOfRange s.pc, { s with status := .faulted .fetchOutOfRange s.pc })) ∧
    (s.status = .running → s.pc.toNat ≤ 0xFFE →
      let byte1 := s.mem.read s.pc.toNat
      let byte2 := s.mem.read (s.pc.toNat + 1)
      (∀ b1 b2, decode byte1 byte2 = .decodeError b1 b2 → hostStep s = (.decodeError byte1 byte2, s)) ∧
      ∀ i, decode byte1 byte2 = .instr i →
        ∃ t, exec i s = .next t ∧
          ((t.status = .running ∧ hostStep s = (.ok, t)) ∨
            ∃ cause info, t = { s with status := .faulted cause info } ∧
              hostStep s = (.machineFault cause info, t)))

/-- Which instruction raises which MachineFault, when, and with which info (the table of 60_exceptions.md section 2,
decision D8): a raise sets the status and changes nothing else (D7), and without a raise the core stays Running. -/
def Obligations.FaultsAreThoseOfTheTable : Prop :=
  ∀ (i : Instr) (s : State), s.status = .running →
    (∀ cause info, raisedBy s i = some (cause, info) →
      exec i s = .next { s with status := .faulted cause info }) ∧
    (raisedBy s i = none → ∃ t, exec i s = .next t ∧ t.status = .running)

/-- Every instruction is available at all times (60_exceptions.md section 4, decision D28): no step is refused. That
exec answers a next state also where the instruction raises a MachineFault is the model's choice (log 4). -/
def Obligations.NoInstructionIsRefused : Prop :=
  (∀ (i : Instr) (s : State), ∃ t, exec i s = .next t) ∧ ∀ (s : State) (r : Refusal), step s ≠ .refused r

/-- While the status is Faulted, no host operation but load_rom changes it, nor any register, stack entry or byte of
memory, and every step returns the same fault; a load that is accepted makes the core Running
(60_exceptions.md section 3, decision D8). -/
def Obligations.FaultedCoreIsStuckUntilLoad : Prop :=
  ∀ (p : Params) (ops : List HostOp) (s : State) (cause : FaultCause) (info : Word),
    s.status = .faulted cause info → (∀ rom, HostOp.loadRom rom ∉ ops) →
      let t := hostRun p ops s
      t.status = .faulted cause info ∧ (hostStep t).1 = .machineFault cause info ∧ t.v = s.v ∧ t.i = s.i ∧
      t.pc = s.pc ∧ t.stack = s.stack ∧ t.sp = s.sp ∧ t.mem = s.mem ∧
      ∀ rom, rom.length ≤ p.romMax.val → (t.loadRom p rom).2.status = .running

/-- A DecodeError changes nothing and leaves the core Running; as the host cannot write PC, every later step returns
the same DecodeError until load_rom (60_exceptions.md section 2, decision D23). -/
def Obligations.DecodeErrorRepeats : Prop :=
  ∀ (p : Params) (ops : List HostOp) (s : State) (byte1 byte2 : Byte),
    s.status = .running → s.pc.toNat ≤ 0xFFE →
    decode (s.mem.read s.pc.toNat) (s.mem.read (s.pc.toNat + 1)) = .decodeError byte1 byte2 →
    (∀ rom, HostOp.loadRom rom ∉ ops) →
      let t := hostRun p ops s
      hostStep t = (.decodeError byte1 byte2, t) ∧ t.status = .running ∧ t.v = s.v ∧ t.i = s.i ∧ t.pc = s.pc ∧
      t.stack = s.stack ∧ t.sp = s.sp ∧ t.mem = s.mem

/-- Where a test run ends (70_reset_and_hazards.md section 5, decision D37), a step changes nothing but the status. -/
def Obligations.RunEndsChangeNothingButStatus : Prop :=
  ∀ s : State, runEnds s = true → ∃ status, (hostStep s).2 = { s with status := status }

/-! ### The invariant -/

/-- The reset state satisfies the invariant. -/
def Obligations.ResetSatisfiesTheInvariant : Prop := Inv State.reset

/-- Every step keeps the invariant: memory stays in canonical form inside 0x000..0xFFF, PC stays at or below 0x10FE
(10_state.md section 4), stack entries stay at or below 0x1000, and a recorded fault stays precise
(60_exceptions.md section 3). -/
def Obligations.StepKeepsTheInvariant : Prop :=
  ∀ s t : State, Inv s → step s = .next t → Inv t

/-- Every host operation keeps the invariant, load_rom with any font, any ROM and any ROM_MAX included. -/
def Obligations.HostOperationsKeepTheInvariant : Prop :=
  ∀ (p : Params) (op : HostOp) (s : State), Inv s → Inv (hostCall p op s).2

/-- The canonical form is one: memories in it that read the same everywhere are the same list (the model's own
representation, log 7). -/
def Obligations.MemoryFormIsCanonical : Prop :=
  ∀ m m' : Memory, m.wf → m'.wf → (∀ a, a < 0x1000 → m.read a = m'.read a) → m = m'

/-! ### What no instruction does -/

/-- Frames of all 34 instructions: one that raises no fault changes only PC and what 10_state.md sections 2 to 7 and
20_memory.md section 1 list for it (decisions D10, D12, D13, D15 among them). -/
def Obligations.InstructionsWriteOnlyWhatTheirRulesList : Prop :=
  ∀ (i : Instr) (s t : State), exec i s = .next t → t.status = s.status → Frame (writesOf s i) s t

/-- ST, the sound timer (10_state.md section 6): only MOV SOUND,Vx writes it, no instruction reads it, and it drives no
output. The tick decrements it to zero at least, in any status (60_exceptions.md section 5, decision D20; log 13). -/
def Obligations.SoundTimerIsWrittenOnceAndNeverRead : Prop :=
  (∀ (i : Instr) (s t : State), exec i s = .next t → (∀ x, i ≠ .setSound x) → t.st = s.st) ∧
  (∀ (x : Reg) (s : State), ∃ t, exec (.setSound x) s = .next t ∧ t.st = s.getV x) ∧
  (∀ (s : State) (b : Byte), (hostStep { s with st := b }).1 = (hostStep s).1 ∧
    ∃ b', (hostStep { s with st := b }).2 = { (hostStep s).2 with st := b' }) ∧
  (∀ s : State, s.tick.st.toNat = s.st.toNat - 1) ∧
  ∀ (s : State) (b : Byte), State.framebuffer { s with st := b } = s.framebuffer

/-- DT, the delay timer (10_state.md section 6): only MOV DELAY,Vx writes it, and only MOV Vx,DELAY reads it. The tick
decrements it to zero at least, in any status (60_exceptions.md section 5, decision D20; log 13). -/
def Obligations.DelayTimerIsReadByOneInstruction : Prop :=
  (∀ (i : Instr) (s t : State), exec i s = .next t → (∀ x, i ≠ .setDelay x) → t.dt = s.dt) ∧
  (∀ (x : Reg) (s : State), ∃ t, exec (.setDelay x) s = .next t ∧ t.dt = s.getV x) ∧
  (∀ (i : Instr) (s t : State) (b : Byte), (∀ x, i ≠ .getDelay x) → exec i s = .next t →
    ∃ b', exec i { s with dt := b } = .next { t with dt := b' }) ∧
  (∀ (x : Reg) (s : State), ∃ t, exec (.getDelay x) s = .next t ∧ t.getV x = s.dt) ∧
  ∀ s : State, s.tick.dt.toNat = s.dt.toNat - 1

/-- The keypad (10_state.md R41, 60_exceptions.md R252): set_keypad replaces all 16 entries and nothing else, no
instruction writes them, and load_rom clears them. SKIPKEY.Y and SKIPKEY.N read the entry that V[x] names, and WAITKEY
waits on whether any is pressed: from every state the entries last set decide where PC goes. No other instruction reads
them. -/
def Obligations.KeypadBelongsToTheHost : Prop :=
  (∀ (s : State) (keys : Vector Bool 16),
    s.setKeypad keys = { s with keypad := keys } ∧ ∀ k, (h : k < 16) → (s.setKeypad keys).keyDown k = keys[k]) ∧
  (∀ (i : Instr) (s t : State), exec i s = .next t → t.keypad = s.keypad) ∧
  (∀ (i : Instr) (s t : State) (keys : Vector Bool 16),
    (∀ x, i ≠ .skipKey x ∧ i ≠ .skipNoKey x ∧ i ≠ .getKey x) → exec i s = .next t →
      exec i (s.setKeypad keys) = .next (t.setKeypad keys)) ∧
  (∀ (x : Reg) (s : State) (keys : Vector Bool 16) (h : (s.getV x).toNat < 16),
    (∃ t, exec (.skipKey x) (s.setKeypad keys) = .next t ∧
      t.pc = if keys[(s.getV x).toNat] = true then s.pc + 4 else s.pc + 2) ∧
    ∃ t, exec (.skipNoKey x) (s.setKeypad keys) = .next t ∧
      t.pc = if keys[(s.getV x).toNat] = true then s.pc + 2 else s.pc + 4) ∧
  (∀ (x : Reg) (s : State) (keys : Vector Bool 16), ∃ t, exec (.getKey x) (s.setKeypad keys) = .next t ∧
    t.pc = if ∃ k, ∃ h : k < 16, keys[k] = true then s.pc + 2 else s.pc) ∧
  ∀ (p : Params) (rom : List Byte) (s : State) (k : Nat), rom.length ≤ p.romMax.val →
    (s.loadRom p rom).2.keyDown k = false

/-- A store into the instruction stream is seen by the next fetch, in address order (20_memory.md sections 2 and 3,
decision D27): after MOVM (I),V0-Vx with x >= 1, a fetch at I reads V0 and V1. -/
def Obligations.StoredBytesAreFetched : Prop :=
  ∀ (x : Reg) (s t : State), 1 ≤ x.val → s.i.toNat + x.val ≤ 0xFFF → exec (.regDump x) s = .next t →
    State.fetchBytes { t with pc := s.i } = some (s.getV 0, s.getV 1)

/-! ### Control transfer and skips -/

/-- JUMP $nnn (41_control_flow.md R142): PC <- nnn and nothing else; a JUMP to its own address changes nothing, and
after JUMP $FFF the next fetch faults. -/
def Obligations.JumpSetsPc : Prop :=
  ∀ (nnn : BitVec 12) (s : State),
    Spells (wordNNN 0x1 nnn) (.jump nnn) ∧
    ∃ t, exec (.jump nnn) s = .next t ∧ t.pc.toNat = nnn.toNat ∧ Frame {} s t ∧
      (nnn.toNat = s.pc.toNat → t = s) ∧
      (nnn = 0xFFF → s.status = .running →
        step t = .next { t with status := .faulted .fetchOutOfRange 0xFFF })

/-- CALL $nnn (41_control_flow.md section 2, decisions D6 and D36): pushes PC + 2 and jumps; with 16 entries it raises
StackOverflow and changes nothing else. -/
def Obligations.CallPushesTheReturnAddress : Prop :=
  ∀ (nnn : BitVec 12) (s : State),
    Spells (wordNNN 0x2 nnn) (.call nnn) ∧
    (∀ h : s.sp.val < 16, ∃ t, exec (.call nnn) s = .next t ∧ t.stack[s.sp.val] = s.pc + 2 ∧
      t.sp.val = s.sp.val + 1 ∧ t.pc.toNat = nnn.toNat ∧
      Frame { stackEntry := some s.sp.val, sp := true } s t) ∧
    (s.sp.val = 16 → exec (.call nnn) s = .next { s with status := .faulted .stackOverflow s.pc })

/-- RTS (41_control_flow.md section 2, decisions D6 and D29): pops the top entry into PC, and the entry keeps its
value; with an empty stack it raises StackUnderflow and changes nothing else. -/
def Obligations.RtsPopsTheReturnAddress : Prop :=
  ∀ s : State,
    Spells 0x00EE .rts ∧
    (0 < s.sp.val → ∃ t, exec .rts s = .next t ∧ s.stack[s.sp.val - 1]? = some t.pc ∧
      t.sp.val = s.sp.val - 1 ∧ Frame { sp := true } s t) ∧
    (s.sp.val = 0 → exec .rts s = .next { s with status := .faulted .stackUnderflow s.pc })

/-- Calls nest (41_control_flow.md section 2): as many RTS as CALLs, up to a full stack, end after the first CALL with
the same SP, the same live entries, registers and memory. -/
def Obligations.NestedCallsReturn : Prop :=
  ∀ (targets : List (BitVec 12)) (s : State), targets ≠ [] → s.sp.val + targets.length ≤ 16 →
    ∃ t, execAll (targets.map Instr.call ++ List.replicate targets.length Instr.rts) s = some t ∧
      t.pc = s.pc + 2 ∧ t.sp = s.sp ∧ (∀ k, (h : k < 16) → k < s.sp.val → t.stack[k] = s.stack[k]) ∧
      t.v = s.v ∧ t.i = s.i ∧ t.mem = s.mem ∧ t.status = s.status

/-- JUMP $nnn(V0) (41_control_flow.md section 2, decision D35): PC <- nnn + V0, not masked. -/
def Obligations.JumpPlusV0IsNotMasked : Prop :=
  ∀ (nnn : BitVec 12) (s : State),
    Spells (wordNNN 0xB nnn) (.jumpPlusV0 nnn) ∧
    ∃ t, exec (.jumpPlusV0 nnn) s = .next t ∧ t.pc.toNat = nnn.toNat + (s.getV 0).toNat ∧ Frame {} s t

/-- The skips on a literal, and the skip on equal registers (41_control_flow.md R145, R146, R147): PC moves by 4 when
the condition holds and by 2 when it does not, and nothing else changes. -/
def Obligations.SkipsMovePcByFourOrTwo : Prop :=
  ∀ (x y : Reg) (nn : Byte) (s : State),
    (Spells (wordXNN 0x3 x nn) (.skipEqImm x nn) ∧
      ∃ t, exec (.skipEqImm x nn) s = .next t ∧ Frame {} s t ∧
        (s.getV x = nn → t.pc = s.pc + 4) ∧ (s.getV x ≠ nn → t.pc = s.pc + 2)) ∧
    (Spells (wordXNN 0x4 x nn) (.skipNeImm x nn) ∧
      ∃ t, exec (.skipNeImm x nn) s = .next t ∧ Frame {} s t ∧
        (s.getV x ≠ nn → t.pc = s.pc + 4) ∧ (s.getV x = nn → t.pc = s.pc + 2)) ∧
    (Spells (wordXYN 0x5 x y 0) (.skipEqReg x y) ∧
      ∃ t, exec (.skipEqReg x y) s = .next t ∧ Frame {} s t ∧
        (s.getV x = s.getV y → t.pc = s.pc + 4) ∧ (s.getV x ≠ s.getV y → t.pc = s.pc + 2))

/-- SKIP.NE Vx,Vy (41_control_flow.md section 2, decision D3 for its encoding). -/
def Obligations.SkipOnUnequalRegisters : Prop :=
  ∀ (x y : Reg) (s : State),
    Spells (wordXYN 0x9 x y 0) (.skipNeReg x y) ∧
    ∃ t, exec (.skipNeReg x y) s = .next t ∧ Frame {} s t ∧
      (s.getV x ≠ s.getV y → t.pc = s.pc + 4) ∧ (s.getV x = s.getV y → t.pc = s.pc + 2)

/-- SKIPKEY.Y and SKIPKEY.N (44_keypad_timers.md, decision D16): they skip on the key that V[x] names, pressed or not;
a V[x] above 15 raises KeyIndexOutOfRange and changes nothing else. -/
def Obligations.KeySkipsTestTheNamedKey : Prop :=
  ∀ (x : Reg) (s : State),
    Spells (wordXNN 0xE x 0x9E) (.skipKey x) ∧ Spells (wordXNN 0xE x 0xA1) (.skipNoKey x) ∧
    (∀ h : (s.getV x).toNat < 16, ∃ t u, exec (.skipKey x) s = .next t ∧ exec (.skipNoKey x) s = .next u ∧
      Frame {} s t ∧ Frame {} s u ∧
      (s.keypad[(s.getV x).toNat] = true → t.pc = s.pc + 4 ∧ u.pc = s.pc + 2) ∧
      (s.keypad[(s.getV x).toNat] = false → t.pc = s.pc + 2 ∧ u.pc = s.pc + 4)) ∧
    (15 < (s.getV x).toNat →
      exec (.skipKey x) s =
        .next { s with status := .faulted .keyIndexOutOfRange (BitVec.ofNat 16 (s.getV x).toNat) } ∧
      exec (.skipNoKey x) s =
        .next { s with status := .faulted .keyIndexOutOfRange (BitVec.ofNat 16 (s.getV x).toNat) })

/-! ### Moves and ALU -/

/-- MVI Vx,#$nn and MOV. Vx,Vy (42_alu.md R161, R163): the destination, PC + 2, and nothing else; VF only when it is
the destination. -/
def Obligations.MovesWriteTheirDestination : Prop :=
  ∀ (x y : Reg) (nn : Byte) (s : State),
    (Spells (wordXNN 0x6 x nn) (.movImm x nn) ∧
      ∃ t, exec (.movImm x nn) s = .next t ∧ t.getV x = nn ∧ t.pc = s.pc + 2 ∧ Frame (onlyReg x) s t) ∧
    (Spells (wordXYN 0x8 x y 0x0) (.mov x y) ∧
      ∃ t, exec (.mov x y) s = .next t ∧ t.getV x = s.getV y ∧ t.pc = s.pc + 2 ∧ Frame (onlyReg x) s t)

/-- ADI Vx,#$nn (42_alu.md, decision D11): adds mod 256 and writes no flag. -/
def Obligations.AddImmediateWrapsWithoutFlag : Prop :=
  ∀ (x : Reg) (nn : Byte) (s : State),
    Spells (wordXNN 0x7 x nn) (.addImm x nn) ∧
    ∃ t, exec (.addImm x nn) s = .next t ∧ (t.getV x).toNat = ((s.getV x).toNat + nn.toNat) % 256 ∧
      t.pc = s.pc + 2 ∧ Frame (onlyReg x) s t

/-- OR., AND. and XOR. (42_alu.md, decision D12): bit by bit, with no flag. -/
def Obligations.BitwiseOperationsWriteNoFlag : Prop :=
  ∀ (x y : Reg) (s : State),
    Spells (wordXYN 0x8 x y 0x1) (.or x y) ∧ Spells (wordXYN 0x8 x y 0x2) (.and x y) ∧
    Spells (wordXYN 0x8 x y 0x3) (.xor x y) ∧
    ∃ t u w, exec (.or x y) s = .next t ∧ exec (.and x y) s = .next u ∧ exec (.xor x y) s = .next w ∧
      (∀ k, (t.getV x).getLsbD k = ((s.getV x).getLsbD k || (s.getV y).getLsbD k) ∧
        (u.getV x).getLsbD k = ((s.getV x).getLsbD k && (s.getV y).getLsbD k) ∧
        (w.getV x).getLsbD k = ((s.getV x).getLsbD k ^^ (s.getV y).getLsbD k)) ∧
      t.pc = s.pc + 2 ∧ u.pc = s.pc + 2 ∧ w.pc = s.pc + 2 ∧
      Frame (onlyReg x) s t ∧ Frame (onlyReg x) s u ∧ Frame (onlyReg x) s w

/-- ADD. Vx,Vy (42_alu.md, decision D9 for x = 15): the sum mod 256 and the carry, which VF keeps when it is the
destination too. -/
def Obligations.AddSetsTheCarry : Prop :=
  ∀ (x y : Reg) (s : State),
    Spells (wordXYN 0x8 x y 0x4) (.add x y) ∧
    ∃ t, exec (.add x y) s = .next t ∧
      (x ≠ VF → (t.getV x).toNat = ((s.getV x).toNat + (s.getV y).toNat) % 256) ∧
      (255 < (s.getV x).toNat + (s.getV y).toNat → t.getV VF = 1) ∧
      ((s.getV x).toNat + (s.getV y).toNat ≤ 255 → t.getV VF = 0) ∧
      t.pc = s.pc + 2 ∧ Frame (regAndFlag x) s t

/-- SUB. and SUBB. Vx,Vy (42_alu.md, decision D9 for x = 15): the difference mod 256, and VF is 1 exactly when there
is no borrow. -/
def Obligations.SubtractsSetNoBorrow : Prop :=
  ∀ (x y : Reg) (s : State),
    Spells (wordXYN 0x8 x y 0x5) (.sub x y) ∧ Spells (wordXYN 0x8 x y 0x7) (.subb x y) ∧
    (∃ t, exec (.sub x y) s = .next t ∧
      (x ≠ VF → (t.getV x).toNat = ((s.getV x).toNat + 256 - (s.getV y).toNat) % 256) ∧
      ((s.getV y).toNat ≤ (s.getV x).toNat → t.getV VF = 1) ∧
      ((s.getV x).toNat < (s.getV y).toNat → t.getV VF = 0) ∧
      t.pc = s.pc + 2 ∧ Frame (regAndFlag x) s t) ∧
    ∃ t, exec (.subb x y) s = .next t ∧
      (x ≠ VF → (t.getV x).toNat = ((s.getV y).toNat + 256 - (s.getV x).toNat) % 256) ∧
      ((s.getV x).toNat ≤ (s.getV y).toNat → t.getV VF = 1) ∧
      ((s.getV y).toNat < (s.getV x).toNat → t.getV VF = 0) ∧
      t.pc = s.pc + 2 ∧ Frame (regAndFlag x) s t

/-- SHR. and SHL. Vx (42_alu.md, decision D10): V[x] is shifted in place and VF gets the bit shifted out; y is
ignored. For x = 15 the flag is written first and then shifted: SHR. leaves 0 and SHL. twice the old bit 7. -/
def Obligations.ShiftsCaptureTheBitBeforeShifting : Prop :=
  ∀ (x y : Reg) (s : State),
    Spells (wordXYN 0x8 x y 0x6) (.shr x y) ∧ Spells (wordXYN 0x8 x y 0xE) (.shl x y) ∧
    (∃ t, exec (.shr x y) s = .next t ∧
      (x ≠ VF → (t.getV x).toNat = (s.getV x).toNat / 2 ∧ (t.getV VF).toNat = (s.getV x).toNat % 2) ∧
      (x = VF → t.getV VF = 0) ∧ t.pc = s.pc + 2 ∧ Frame (regAndFlag x) s t) ∧
    ∃ t, exec (.shl x y) s = .next t ∧
      (x ≠ VF → (t.getV x).toNat = (s.getV x).toNat * 2 % 256 ∧
        (t.getV VF).toNat = (s.getV x).toNat / 128) ∧
      (x = VF → (t.getV VF).toNat = (s.getV VF).toNat / 128 * 2) ∧ t.pc = s.pc + 2 ∧ Frame (regAndFlag x) s t

/-- RNDMSK Vx,#$nn (42_alu.md, decision D19): a fresh byte of the random source, whatever it is, AND nn. The number of
the draw is the model's own (log 2). -/
def Obligations.RandomByteIsMasked : Prop :=
  ∀ (x : Reg) (nn : Byte) (s : State),
    Spells (wordXNN 0xC x nn) (.randAnd x nn) ∧
    ∃ t, exec (.randAnd x nn) s = .next t ∧ t.getV x = Config.randByte s.draws &&& nn ∧
      (∀ k, nn.getLsbD k = false → (t.getV x).getLsbD k = false) ∧ t.draws = s.draws + 1 ∧
      t.pc = s.pc + 2 ∧ Frame { onlyReg x with draws := true } s t

/-! ### Index register and memory -/

/-- MVI I,#$nnn (43_index_memory.md R190). -/
def Obligations.SetIndexLoadsTheAddress : Prop :=
  ∀ (nnn : BitVec 12) (s : State),
    Spells (wordNNN 0xA nnn) (.setI nnn) ∧
    ∃ t, exec (.setI nnn) s = .next t ∧ t.i.toNat = nnn.toNat ∧ t.pc = s.pc + 2 ∧ Frame { index := true } s t

/-- ADI I,Vx (43_index_memory.md, decision D13): wraps at 16 bits, with no flag and no fault. -/
def Obligations.AddToIndexWrapsAtSixteenBits : Prop :=
  ∀ (x : Reg) (s : State),
    Spells (wordXNN 0xF x 0x1E) (.addI x) ∧
    ∃ t, exec (.addI x) s = .next t ∧ t.i.toNat = (s.i.toNat + (s.getV x).toNat) % 65536 ∧
      t.pc = s.pc + 2 ∧ Frame { index := true } s t

/-- SPRITECHAR Vx (43_index_memory.md, decision D14): I <- 5 * V[x], unmasked. -/
def Obligations.FontCharacterAddressIsFiveTimesVx : Prop :=
  ∀ (x : Reg) (s : State),
    Spells (wordXNN 0xF x 0x29) (.spriteChar x) ∧
    ∃ t, exec (.spriteChar x) s = .next t ∧ t.i.toNat = (s.getV x).toNat * 5 ∧ t.pc = s.pc + 2 ∧
      Frame { index := true } s t

/-- MOVBCD Vx (43_index_memory.md R193): the three decimal digits of V[x] to I, I+1, I+2; out of range it raises
DataOutOfRange and changes nothing else. -/
def Obligations.BcdStoresThreeDigits : Prop :=
  ∀ (x : Reg) (s : State),
    Spells (wordXNN 0xF x 0x33) (.movBcd x) ∧
    (s.i.toNat + 2 ≤ 0xFFF → ∃ t, exec (.movBcd x) s = .next t ∧
      (t.mem.read s.i.toNat).toNat = (s.getV x).toNat / 100 ∧
      (t.mem.read (s.i.toNat + 1)).toNat = (s.getV x).toNat / 10 % 10 ∧
      (t.mem.read (s.i.toNat + 2)).toNat = (s.getV x).toNat % 10 ∧
      t.pc = s.pc + 2 ∧ Frame { memFrom := s.i.toNat, memLen := 3 } s t) ∧
    (0xFFF < s.i.toNat + 2 → exec (.movBcd x) s =
      .next { s with status := .faulted .dataOutOfRange (BitVec.ofNat 16 (max s.i.toNat 0x1000)) })

/-- MOVM (I),V0-Vx (43_index_memory.md, decision D15: I stays): V[k] to I + k for k = 0..x; out of range it raises
DataOutOfRange and changes nothing else. -/
def Obligations.RegisterDumpStoresV0ToVx : Prop :=
  ∀ (x : Reg) (s : State),
    Spells (wordXNN 0xF x 0x55) (.regDump x) ∧
    (s.i.toNat + x.val ≤ 0xFFF → ∃ t, exec (.regDump x) s = .next t ∧
      (∀ k : Reg, k.val ≤ x.val → t.mem.read (s.i.toNat + k.val) = s.getV k) ∧
      t.pc = s.pc + 2 ∧ Frame { memFrom := s.i.toNat, memLen := x.val + 1 } s t) ∧
    (0xFFF < s.i.toNat + x.val → exec (.regDump x) s =
      .next { s with status := .faulted .dataOutOfRange (BitVec.ofNat 16 (max s.i.toNat 0x1000)) })

/-- MOVM V0-Vx,(I) (43_index_memory.md, decision D15: I stays): I + k to V[k] for k = 0..x; out of range it raises
DataOutOfRange and changes nothing else. -/
def Obligations.RegisterLoadReadsV0ToVx : Prop :=
  ∀ (x : Reg) (s : State),
    Spells (wordXNN 0xF x 0x65) (.regLoad x) ∧
    (s.i.toNat + x.val ≤ 0xFFF → ∃ t, exec (.regLoad x) s = .next t ∧
      (∀ k : Reg, k.val ≤ x.val → t.getV k = s.mem.read (s.i.toNat + k.val)) ∧
      t.pc = s.pc + 2 ∧ Frame { regs := fun r => decide (r.val ≤ x.val) } s t) ∧
    (0xFFF < s.i.toNat + x.val → exec (.regLoad x) s =
      .next { s with status := .faulted .dataOutOfRange (BitVec.ofNat 16 (max s.i.toNat 0x1000)) })

/-- A dump and a later load from the same I bring V0..Vx back, whatever the other registers became meanwhile
(43_index_memory.md; decision D15). -/
def Obligations.DumpThenLoadRestoresRegisters : Prop :=
  ∀ (x : Reg) (s t u : State), s.i.toNat + x.val ≤ 0xFFF → exec (.regDump x) s = .next t →
    u.i = s.i → (∀ a, s.i.toNat ≤ a → a ≤ s.i.toNat + x.val → u.mem.read a = t.mem.read a) →
      ∃ w, exec (.regLoad x) u = .next w ∧ ∀ k : Reg, k.val ≤ x.val → w.getV k = s.getV k

/-! ### Display -/

/-- CLS (40_display.md section 2): all 256 framebuffer bytes are 0, and nothing else changes but PC. When PC is then
inside the framebuffer, the next fetch reads 0x0000, which is illegal (the rule's own inference). -/
def Obligations.ClearScreenZeroesTheFramebuffer : Prop :=
  ∀ s : State,
    Spells 0x00E0 .cls ∧
    ∃ t, exec .cls s = .next t ∧ (∀ a, 0xF00 ≤ a → a ≤ 0xFFF → t.mem.read a = 0) ∧ t.pc = s.pc + 2 ∧
      Frame { memFrom := 0xF00, memLen := 256 } s t ∧
      (s.status = .running → 0xF00 ≤ t.pc.toNat → t.pc.toNat ≤ 0xFFE → step t = .fault (.decodeError 0 0))

/-- XorPixel, the collision primitive (40_display.md section 1): it returns whether the pixel was set, toggles it, and
changes no other pixel and no byte but the pixel's own, which is in the framebuffer; a pixel is bit 7 - x % 8 of byte
0xF00 + 8*y + x/8 (the inference of 20_memory.md section 1). -/
def Obligations.XorPixelTogglesOnePixel : Prop :=
  ∀ (m : Memory) (x y : Nat), x < 64 → y < 32 →
    (m.xorPixel x y).1 = m.pixel x y ∧
    m.pixel x y = (m.read (0xF00 + 8 * y + x / 8)).getLsbD (7 - x % 8) ∧
    (∀ px py, px < 64 → py < 32 →
      (m.xorPixel x y).2.pixel px py = (m.pixel px py ^^ decide (px = x ∧ py = y))) ∧
    (∀ a, a ≠ 0xF00 + 8 * y + x / 8 → (m.xorPixel x y).2.read a = m.read a)

/-- SPRITE Vx,Vy,#$n (40_display.md section 2), row by row. Columns most significant bit first, coordinates read before
VF is written and each row's byte read after the rows before it are decision D18, the fault D4 (log 13). Memory goes through m 0, ..., m n, where row r's byte is read
from m r, that is, after the rows before it were plotted, and toggles exactly the pixels its set bits cover, wrapped
around the screen. VF is 1 when some set bit met a set pixel, else 0, also for n = 0. Out of range it raises
DataOutOfRange and changes nothing else. -/
def Obligations.SpriteTogglesItsPixelsRowByRow : Prop :=
  ∀ (x y : Reg) (n : Nat) (s : State),
    (n ≤ 15 → Spells (wordXYN 0xD x y n) (.draw x y n)) ∧
    (n = 0 ∨ s.i.toNat + n - 1 ≤ 0xFFF → ∃ (t : State) (m : Nat → Memory),
      exec (.draw x y n) s = .next t ∧ m 0 = s.mem ∧ t.mem = m n ∧
      (∀ r, r < n →
        (∀ px py, px < 64 → py < 32 → (m (r + 1)).pixel px py = ((m r).pixel px py ^^
          rowCovers ((m r).read (s.i.toNat + r)) (s.getV x).toNat ((s.getV y).toNat + r) px py)) ∧
        ∀ a, ¬ (0xF00 ≤ a ∧ a ≤ 0xFFF) → (m (r + 1)).read a = (m r).read a) ∧
      ((∃ r px py, r < n ∧ px < 64 ∧ py < 32 ∧ (m r).pixel px py = true ∧
        rowCovers ((m r).read (s.i.toNat + r)) (s.getV x).toNat ((s.getV y).toNat + r) px py = true) →
          t.getV VF = 1) ∧
      ((∀ r px py, r < n → px < 64 → py < 32 → (m r).pixel px py = true →
        rowCovers ((m r).read (s.i.toNat + r)) (s.getV x).toNat ((s.getV y).toNat + r) px py = false) →
          t.getV VF = 0) ∧
      t.pc = s.pc + 2 ∧ Frame { regs := fun r => r == VF, memFrom := 0xF00, memLen := 256 } s t) ∧
    (1 ≤ n → 0xFFF < s.i.toNat + n - 1 → exec (.draw x y n) s =
      .next { s with status := .faulted .dataOutOfRange (BitVec.ofNat 16 (max s.i.toNat 0x1000)) })

/-- Drawing a sprite outside the framebuffer twice at the same place restores memory. The second draw reports a
collision exactly when a set bit covers a pixel that was off before the first; so over a clear area the first reports
none and the second one, if the sprite has a set bit (40_display.md section 2, 90_conflicts.md C9; log 12: the rule's
own wording leaves the clear area out). Not at the same place, and so not meant, is a draw whose coordinate VF the first
one changed. How a draw reads its operands is decision D18 (log 13). -/
def Obligations.SpriteTwiceRestoresTheScreen : Prop :=
  ∀ (x y : Reg) (n : Nat) (s t u : State), n ≤ 15 → n = 0 ∨ s.i.toNat + n ≤ 0xF00 →
    exec (.draw x y n) s = .next t → t.getV x = s.getV x → t.getV y = s.getV y →
    exec (.draw x y n) t = .next u →
      let covered := fun px py => ∃ r, r < n ∧
        rowCovers (s.mem.read (s.i.toNat + r)) (s.getV x).toNat ((s.getV y).toNat + r) px py = true
      (∀ a, u.mem.read a = s.mem.read a) ∧
      (t.getV VF = 1 ↔ ∃ px py, px < 64 ∧ py < 32 ∧ covered px py ∧ s.mem.pixel px py = true) ∧
      (u.getV VF = 1 ↔ ∃ px py, px < 64 ∧ py < 32 ∧ covered px py ∧ s.mem.pixel px py = false)

/-! ### Keypad and timers -/

/-- WAITKEY Vx (44_keypad_timers.md, decision D17: the lowest index wins): with no key pressed nothing changes at all,
PC included; else V[x] gets the lowest pressed key and PC moves on. -/
def Obligations.WaitKeyHoldsUntilAKeyIsPressed : Prop :=
  ∀ (x : Reg) (s : State),
    Spells (wordXNN 0xF x 0x0A) (.getKey x) ∧
    ((∀ k, (h : k < 16) → s.keypad[k] = false) → exec (.getKey x) s = .next s) ∧
    ∀ k, (h : k < 16) → s.keypad[k] = true → (∀ j, (hj : j < 16) → j < k → s.keypad[j] = false) →
      ∃ t, exec (.getKey x) s = .next t ∧ (t.getV x).toNat = k ∧ t.pc = s.pc + 2 ∧ Frame (onlyReg x) s t

/-- MOV Vx,DELAY, MOV DELAY,Vx and MOV SOUND,Vx (44_keypad_timers.md R212, R214, R215). -/
def Obligations.TimerMovesCopyTheirByte : Prop :=
  ∀ (x : Reg) (s : State),
    (Spells (wordXNN 0xF x 0x07) (.getDelay x) ∧
      ∃ t, exec (.getDelay x) s = .next t ∧ t.getV x = s.dt ∧ t.pc = s.pc + 2 ∧ Frame (onlyReg x) s t) ∧
    (Spells (wordXNN 0xF x 0x15) (.setDelay x) ∧
      ∃ t, exec (.setDelay x) s = .next t ∧ t.dt = s.getV x ∧ t.pc = s.pc + 2 ∧ Frame { dt := true } s t) ∧
    (Spells (wordXNN 0xF x 0x18) (.setSound x) ∧
      ∃ t, exec (.setSound x) s = .next t ∧ t.st = s.getV x ∧ t.pc = s.pc + 2 ∧ Frame { st := true } s t)

/-! ### The host's operations -/

/-- load_rom (70_reset_and_hazards.md section 1, decision D21), for every font and every ROM_MAX: the reset state with
the font at 0x000, the ROM at 0x200 and 0 elsewhere, from any state; a longer ROM changes nothing. The count of draws
is the model's own (log 10). -/
def Obligations.LoadRomResetsTheCore : Prop :=
  ∀ (p : Params) (rom : List Byte) (s : State),
    (rom.length ≤ p.romMax.val → ∃ t, s.loadRom p rom = (.loaded, t) ∧
      (∀ k, k < 80 → t.mem.read k = fontByte p.font k) ∧
      (∀ a, 0x050 ≤ a → a < 0x200 → t.mem.read a = 0) ∧
      (∀ k, (h : k < rom.length) → t.mem.read (0x200 + k) = rom[k]) ∧
      (∀ a, 0x200 + rom.length ≤ a → a ≤ 0xFFF → t.mem.read a = 0) ∧
      (∀ r, t.getV r = 0) ∧ t.i = 0 ∧ t.pc = 0x200 ∧ (∀ k, (h : k < 16) → t.stack[k] = 0) ∧ t.sp = 0 ∧
      t.dt = 0 ∧ t.st = 0 ∧ (∀ k, t.keyDown k = false) ∧ t.status = .running ∧ t.draws = s.draws) ∧
    (p.romMax.val < rom.length → s.loadRom p rom = (.loadRejected, s))

/-- The power-on state is what load_rom of an empty ROM gives with the parameters at their defaults, and its first step
returns DecodeError(0x00, 0x00) (70_reset_and_hazards.md section 1, decision D22). -/
def Obligations.PowerOnIsAnEmptyLoad : Prop :=
  (∀ s : State, s.loadRom defaultParams [] = (.loaded, { State.reset with draws := s.draws })) ∧
  hostStep State.reset = (.decodeError 0x00 0x00, State.reset)

/-- Any number of ticks takes that much off both timers, saturating at zero, in any status, and changes nothing else
(60_exceptions.md section 5, decision D20). -/
def Obligations.TicksCountBothTimersDown : Prop :=
  ∀ (n : Nat) (s : State), ∃ dt st,
    State.tick^[n] s = { s with dt := dt, st := st } ∧ dt.toNat = s.dt.toNat - n ∧ st.toNat = s.st.toNat - n

/-- framebuffer() (20_memory.md R78): the 256 bytes mem[0xF00..0xFFF], or one byte per pixel, 1 exactly where the masked
byte is not 0; it changes nothing, and of the host's own operations only load_rom writes memory. -/
def Obligations.FramebufferIsAReadOnlyView : Prop :=
  ∀ (p : Params) (s : State),
    s.framebuffer.length = 256 ∧ (∀ k, k < 256 → s.framebuffer[k]? = some (s.mem.read (0xF00 + k))) ∧
    s.framebufferPixels.length = 2048 ∧
    (∀ x y, x < 64 → y < 32 → s.framebufferPixels[y * 64 + x]? =
      some (if s.mem.read (0xF00 + (y * 64 + x) / 8) &&& (0x80#8 >>> ((y * 64 + x) % 8)) ≠ 0 then 1 else 0)) ∧
    hostCall p .framebuffer s = (.bytes s.framebuffer, s) ∧
    ∀ op, (∀ rom, op ≠ .loadRom rom) → op ≠ .step → (hostCall p op s).2.mem = s.mem
end

