-- ==== Sys2Proof/Laws/Decode.lean ====
section
/-! SUPPORT. The fields of the words that the encoder builds, and the bytes of a word. -/

namespace Sys2Proof

/-! ### Bytes of a word -/

theorem bits_highByte_lowByte (w : Word) :
    bits w 15 8 < 256 ∧ bits w 7 0 < 256 ∧ bits w 15 8 * 256 + bits w 7 0 = w.toNat := by
  have := w.isLt
  simp [bits]; omega

/-- byte1 ++ byte2 of a word is the word. -/
@[simp] theorem wordOf_highByte_lowByte (w : Word) : wordOf (highByte w) (lowByte w) = w := by
  obtain ⟨h1, h2, h3⟩ := bits_highByte_lowByte w
  apply BitVec.eq_of_toNat_eq
  have := w.isLt
  simp [wordOf, highByte, lowByte, Nat.mod_eq_of_lt h1, Nat.mod_eq_of_lt h2]
  omega

theorem toNat_wordOf (byte1 byte2 : Byte) : (wordOf byte1 byte2).toNat = byte1.toNat * 256 + byte2.toNat := by
  have h1 := byte1.isLt
  have h2 := byte2.isLt
  simp [wordOf]; omega

@[simp] theorem highByte_wordOf (byte1 byte2 : Byte) : highByte (wordOf byte1 byte2) = byte1 := by
  apply BitVec.eq_of_toNat_eq
  have h1 := byte1.isLt
  have h2 := byte2.isLt
  simp [highByte, bits, toNat_wordOf]; omega

@[simp] theorem lowByte_wordOf (byte1 byte2 : Byte) : lowByte (wordOf byte1 byte2) = byte2 := by
  apply BitVec.eq_of_toNat_eq
  have h1 := byte1.isLt
  have h2 := byte2.isLt
  simp [lowByte, bits, toNat_wordOf]; omega

/-- Decoding the two bytes of a word, in terms of the word. -/
theorem decode_bytes (w : Word) : decode (highByte w) (lowByte w) =
    match decodeWord w with
    | some i => .instr i
    | none => .decodeError (highByte w) (lowByte w) := by
  cases h : decodeWord w <;> simp [decode, h]

/-! ### Fields of the three word shapes -/

theorem toNat_wordNNN {h : Nat} (hh : h < 16) (nnn : BitVec 12) :
    (wordNNN h nnn).toNat = h * 4096 + nnn.toNat := by
  have := nnn.isLt
  simp [wordNNN]; omega

theorem bits_wordNNN {h : Nat} (hh : h < 16) (nnn : BitVec 12) :
    bits (wordNNN h nnn) 15 12 = h ∧ bits (wordNNN h nnn) 11 0 = nnn.toNat := by
  have := nnn.isLt
  simp only [bits, toNat_wordNNN hh]
  constructor <;> simp <;> omega

theorem toNat_wordXNN {h : Nat} (hh : h < 16) (x : Reg) (nn : Byte) :
    (wordXNN h x nn).toNat = h * 4096 + x.val * 256 + nn.toNat := by
  have := nn.isLt
  have := x.isLt
  simp [wordXNN]; omega

theorem bits_wordXNN {h : Nat} (hh : h < 16) (x : Reg) (nn : Byte) :
    bits (wordXNN h x nn) 15 12 = h ∧ bits (wordXNN h x nn) 11 8 = x.val ∧
      bits (wordXNN h x nn) 7 0 = nn.toNat := by
  have := nn.isLt
  have := x.isLt
  simp only [bits, toNat_wordXNN hh]
  refine ⟨?_, ?_, ?_⟩ <;> simp <;> omega

theorem toNat_wordXYN {h n : Nat} (hh : h < 16) (hn : n < 16) (x y : Reg) :
    (wordXYN h x y n).toNat = h * 4096 + x.val * 256 + y.val * 16 + n := by
  have := y.isLt
  have := x.isLt
  simp [wordXYN]; omega

theorem bits_wordXYN {h n : Nat} (hh : h < 16) (hn : n < 16) (x y : Reg) :
    bits (wordXYN h x y n) 15 12 = h ∧ bits (wordXYN h x y n) 11 8 = x.val ∧
      bits (wordXYN h x y n) 7 4 = y.val ∧ bits (wordXYN h x y n) 3 0 = n := by
  have := y.isLt
  have := x.isLt
  simp only [bits, toNat_wordXYN hh hn]
  refine ⟨?_, ?_, ?_, ?_⟩ <;> simp <;> omega

@[simp] theorem regOf_val (x : Reg) : regOf x.val = x := by
  apply Fin.ext; simp [regOf]

end Sys2Proof
end

