-- ==== Sys2Proof/Laws/Memory.lean ====
section
/-! SUPPORT. The laws of memory: a read after a write, and the canonical form. -/

namespace Sys2Proof.Machine

theorem Memory.read_nil (a : Nat) : Memory.read [] a = background a := rfl

theorem Memory.read_cons (c : Host.Cell) (m : Memory) (a : Nat) :
    Memory.read (c :: m) a = if c.1 = a then c.2 else Memory.read m a := by
  by_cases h : c.1 = a <;> simp [Memory.read, h]

theorem Memory.read_place (a : Nat) (b : Byte) (m : Memory) (k : Nat) (h : ∀ c ∈ m, c.1 ≠ a) :
    Memory.read (Memory.place a b m) k = if k = a then b else Memory.read m k := by
  induction m with
  | nil => simp [Memory.place, Memory.read_cons, eq_comm]
  | cons c rest ih =>
    have hc : c.1 ≠ a := h c (by simp)
    have ih := ih fun d hd => h d (by simp [hd])
    by_cases hlt : a < c.1
    · simp [Memory.place, hlt, Memory.read_cons, eq_comm]
    · by_cases hk : c.1 = k
      · subst hk; simp [Memory.place, hlt, Memory.read_cons, hc]
      · simp [Memory.place, hlt, Memory.read_cons, hk, ih]

theorem Memory.read_unlist (m : Memory) (a k : Nat) :
    (m.unlist a).read k = if k = a then background a else m.read k := by
  induction m with
  | nil => by_cases h : k = a <;> simp [Memory.unlist, Memory.read_nil, h]
  | cons c rest ih =>
    by_cases hc : c.1 = a
    · have hu : Memory.unlist (c :: rest) a = Memory.unlist rest a := by simp [Memory.unlist, hc]
      rw [hu, ih, Memory.read_cons]
      by_cases hk : k = a <;> simp [hk]
      intro h; exact absurd (h.symm.trans hc) hk
    · have hu : Memory.unlist (c :: rest) a = c :: Memory.unlist rest a := by simp [Memory.unlist, hc]
      rw [hu, Memory.read_cons, Memory.read_cons, ih]
      by_cases hk : k = a
      · subst hk; simp [hc]
      · simp [hk]

theorem Memory.not_mem_unlist (m : Memory) (a : Nat) : ∀ c ∈ m.unlist a, c.1 ≠ a := by
  simp [Memory.unlist]

/-- A read after a write gives the written byte, and a write leaves every other byte alone. -/
@[simp] theorem Memory.read_write (m : Memory) (a : Nat) (b : Byte) (k : Nat) :
    (m.write a b).read k = if k = a then b else m.read k := by
  unfold Memory.write
  split
  · rename_i h; rw [Memory.read_unlist, h]
  · rw [Memory.read_place _ _ _ _ (Memory.not_mem_unlist m a), Memory.read_unlist]
    by_cases hk : k = a <;> simp [hk]

/-- The same for the bytes of a range: inside it the written byte, outside it the old one. -/
theorem Memory.read_writeBytes (bs : List Byte) : ∀ (m : Memory) (base k : Nat),
    (m.writeBytes base bs).read k =
      if base ≤ k then (bs[k - base]?).getD (m.read k) else m.read k := by
  induction bs with
  | nil => intro m base k; simp [Memory.writeBytes]
  | cons b rest ih =>
    intro m base k
    rw [Memory.writeBytes, ih, Memory.read_write]
    by_cases h1 : base ≤ k
    · by_cases h2 : k = base
      · subst h2; simp
      · have h3 : base + 1 ≤ k := by omega
        obtain ⟨j, rfl⟩ : ∃ j, k = base + (j + 1) := ⟨k - base - 1, by omega⟩
        simp [show base + 1 ≤ base + (j + 1) by omega, show base + (j + 1) - (base + 1) = j by omega]
    · simp [h1, show ¬ base + 1 ≤ k by omega, show k ≠ base by omega]

/-- Addresses outside a written range read as before. -/
theorem Memory.read_writeBytes_outside (m : Memory) (base k : Nat) (bs : List Byte)
    (h : ¬ (base ≤ k ∧ k < base + bs.length)) : (m.writeBytes base bs).read k = m.read k := by
  rw [Memory.read_writeBytes]
  split
  · rw [List.getElem?_eq_none (by omega)]; rfl
  · rfl

/-! ### The canonical form -/

theorem Memory.wf_nil : Memory.wf [] := ⟨.nil, by simp⟩

theorem Memory.wf_unlist {m : Memory} (h : m.wf) (a : Nat) : (m.unlist a).wf :=
  ⟨h.1.filter _, fun c hc => h.2 c (List.mem_of_mem_filter hc)⟩

theorem Memory.mem_place {a : Nat} {b : Byte} {m : Memory} {c : Host.Cell} :
    c ∈ Memory.place a b m ↔ c = (a, b) ∨ c ∈ m := by
  induction m with
  | nil => simp [Memory.place]
  | cons d rest ih =>
    by_cases h : a < d.1
    · simp [Memory.place, h]
    · simp [Memory.place, h, ih]; tauto

theorem Memory.wf_place {m : Memory} {a : Nat} {b : Byte} (h : m.wf) (ha : a < 0x1000) (hb : b ≠ background a)
    (hn : ∀ c ∈ m, c.1 ≠ a) : (Memory.place a b m).wf := by
  refine ⟨?_, fun c hc => ?_⟩
  · have hp := h.1
    clear h
    induction m with
    | nil => simp [Memory.place]
    | cons d rest ih =>
      rw [List.pairwise_cons] at hp
      have hd := hn d (by simp)
      by_cases hlt : a < d.1
      · simp only [Memory.place, hlt, if_true, List.pairwise_cons]
        refine ⟨fun c hc => ?_, hp⟩
        rcases List.mem_cons.1 hc with rfl | hc
        · exact hlt
        · have := hp.1 c hc; omega
      · simp only [Memory.place, hlt, if_false, List.pairwise_cons]
        refine ⟨fun c hc => ?_, ih (fun c hc => hn c (by simp [hc])) hp.2⟩
        rcases Memory.mem_place.1 hc with rfl | hc
        · show d.1 < a; omega
        · exact hp.1 c hc
  · rcases Memory.mem_place.1 hc with rfl | hc
    · exact ⟨ha, hb⟩
    · exact h.2 c hc

/-- A write inside the address space keeps the canonical form. -/
theorem Memory.wf_write {m : Memory} (h : m.wf) {a : Nat} (ha : a < 0x1000) (b : Byte) : (m.write a b).wf := by
  unfold Memory.write
  split
  · exact Memory.wf_unlist h a
  · exact Memory.wf_place (Memory.wf_unlist h a) ha ‹_› (Memory.not_mem_unlist m a)

/-- A write of several bytes inside the address space keeps the canonical form. -/
theorem Memory.wf_writeBytes (bs : List Byte) : ∀ {m : Memory} {base : Nat}, m.wf →
    base + bs.length ≤ 0x1000 → (m.writeBytes base bs).wf := by
  induction bs with
  | nil => intro m base h _; exact h
  | cons b rest ih =>
    intro m base h hl
    simp only [List.length_cons] at hl
    exact ih (Memory.wf_write h (by omega) b) (by omega)

end Sys2Proof.Machine
end

