-- ==== Sys2Proof/Laws/Ops.lean ====
section
/-! SUPPORT. What each shared operation can do, said once. -/

namespace Sys2Proof.Machine

/-- The range check passes exactly when every address of the access is in 0x000..0xFFF. -/
theorem firstOutOfRange_eq_none {base n : Nat} :
    firstOutOfRange base n = none ↔ n = 0 ∨ base + n ≤ 0x1000 := by
  unfold firstOutOfRange; split <;> simp_all

/-- When it fails it names max(base, 0x1000) (spec/20_memory.md R65). -/
theorem firstOutOfRange_eq_some {base n a : Nat} :
    firstOutOfRange base n = some a ↔ (0 < n ∧ 0x1000 < base + n) ∧ a = max base 0x1000 := by
  unfold firstOutOfRange; split <;> simp <;> omega

/-- A checked access either runs, every address in range, or raises DataOutOfRange. -/
theorem checkedAccess_cases (s done : State) (base n : Nat) :
    ((n = 0 ∨ base + n ≤ 0x1000) ∧ checkedAccess s base n done = .next done) ∨
    ((0 < n ∧ 0x1000 < base + n) ∧ checkedAccess s base n done =
      .next (s.enterFault .dataOutOfRange (BitVec.ofNat 16 (max base 0x1000)))) := by
  unfold checkedAccess
  cases h : firstOutOfRange base n with
  | none => exact .inl ⟨firstOutOfRange_eq_none.1 h, rfl⟩
  | some a =>
    obtain ⟨h1, rfl⟩ := firstOutOfRange_eq_some.1 h
    exact .inr ⟨h1, rfl⟩

theorem checkedAccess_inRange (s done : State) {base n : Nat} (h : n = 0 ∨ base + n ≤ 0x1000) :
    checkedAccess s base n done = .next done := by
  simp [checkedAccess, firstOutOfRange_eq_none.2 h]

theorem checkedAccess_outOfRange (s done : State) {base n : Nat} (h0 : 0 < n) (h : 0x1000 < base + n) :
    checkedAccess s base n done =
      .next (s.enterFault .dataOutOfRange (BitVec.ofNat 16 (max base 0x1000))) := by
  simp [checkedAccess, firstOutOfRange_eq_some.2 ⟨⟨h0, h⟩, rfl⟩, raise]

/-- A push writes stack[SP] and counts it, or SP is 16. -/
theorem State.push_cases (s : State) (w : Word) :
    (∃ h : s.sp.val < 16, s.push w =
      some { s with stack := s.stack.set s.sp.val w, sp := ⟨s.sp.val + 1, by omega⟩ }) ∨
    (s.sp.val = 16 ∧ s.push w = none) := by
  by_cases h : s.sp.val < 16
  · exact .inl ⟨h, by simp [State.push, h]⟩
  · exact .inr ⟨by omega, by simp [State.push, h]⟩

/-- A pop uncounts the top entry and keeps its value, or SP is 0. -/
theorem State.pop_cases (s : State) :
    (∃ h : 0 < s.sp.val, s.pop =
      some (s.stack[s.sp.val - 1]'(by omega), { s with sp := ⟨s.sp.val - 1, by omega⟩ })) ∨
    (s.sp.val = 0 ∧ s.pop = none) := by
  by_cases h : 0 < s.sp.val
  · exact .inl ⟨h, by simp [State.pop, h]⟩
  · exact .inr ⟨by omega, by simp [State.pop, h]⟩

/-- A key operand is V[x], when that is a key. -/
theorem State.keyOperand_cases (s : State) (x : Reg) :
    ((s.getV x).toNat ≤ 0xF ∧ s.keyOperand x = some (s.getV x).toNat) ∨
    (0xF < (s.getV x).toNat ∧ s.keyOperand x = none) := by
  unfold State.keyOperand; split <;> simp_all

/-- The first pressed key is pressed, and no key below it is. -/
theorem State.firstPressed_eq_some {s : State} {k : Nat} :
    s.firstPressed = some k ↔ k < 16 ∧ s.keyDown k = true ∧ ∀ j, j < k → s.keyDown j = false := by
  simp only [State.firstPressed, List.find?_range_eq_some]
  simp [List.mem_range]; tauto

theorem State.firstPressed_eq_none {s : State} :
    s.firstPressed = none ↔ ∀ k, k < 16 → s.keyDown k = false := by
  simp [State.firstPressed]

end Sys2Proof.Machine
end

