-- ==== Sys2Proof/Laws/Display.lean ====
section
/-! SUPPORT. The collision detector touches framebuffer bytes only, and keeps the canonical form of memory. -/

namespace Sys2Proof.Machine

/-- The address of a pixel on the screen is in the framebuffer (spec/40_display.md R122). -/
theorem pixelAddress_range {x y : Nat} (hx : x < 64) (hy : y < 32) :
    0xF00 ≤ pixelAddress x y ∧ pixelAddress x y < 0x1000 := by
  unfold pixelAddress; omega

theorem background_above {a : Nat} (h : 80 ≤ a) : background a = 0 := by
  unfold background fontByte
  rw [dif_neg (by omega)]

/-- Writing 0 to n addresses that read 0 when unlisted takes them off the list. -/
theorem writeBytes_zeros (n : Nat) : ∀ (m : Memory) (base : Nat), 80 ≤ base →
    m.writeBytes base (List.replicate n 0) = m.filter fun c => !(decide (base ≤ c.1) && decide (c.1 < base + n)) := by
  induction n with
  | zero => intro m base _; exact (List.filter_eq_self.2 fun c _ => by simp; omega).symm
  | succ n ih =>
    intro m base h
    have hw : m.write base 0 = m.unlist base := by
      unfold Memory.write; rw [if_pos (background_above h).symm]
    rw [List.replicate_succ, Memory.writeBytes, hw, ih _ _ (by omega), Memory.unlist, List.filter_filter]
    refine List.filter_congr fun c _ => ?_
    rw [Bool.eq_iff_iff]
    simp; omega

/-- CLS is the 256 writes of 0 that its rule lists (spec/40_display.md R123). -/
theorem clearFramebuffer_eq (m : Memory) : clearFramebuffer m = m.writeBytes 0xF00 (List.replicate 256 0) :=
  (writeBytes_zeros 256 m 0xF00 (by omega)).symm

/-- CLS zeroes the framebuffer and leaves every other byte. -/
theorem read_clearFramebuffer (m : Memory) (a : Nat) :
    (clearFramebuffer m).read a = if 0xF00 ≤ a ∧ a < 0x1000 then 0 else m.read a := by
  rw [clearFramebuffer_eq, Memory.read_writeBytes]
  by_cases h1 : 0xF00 ≤ a
  · by_cases h2 : a < 0x1000
    · rw [if_pos h1, if_pos ⟨h1, h2⟩, List.getElem?_replicate, if_pos (by omega)]; rfl
    · rw [if_pos h1, if_neg (by omega), List.getElem?_replicate, if_neg (by omega)]; rfl
  · rw [if_neg h1, if_neg (by omega)]

/-- CLS keeps the canonical form of memory. -/
theorem wf_clearFramebuffer {m : Memory} (h : m.wf) : (clearFramebuffer m).wf :=
  ⟨h.1.filter _, fun c hc => h.2 c (List.mem_of_mem_filter hc)⟩

/-- What holds of memory and of every toggle of a screen pixel holds after a column is plotted. -/
theorem plotColumn_induction {P : Memory → Prop}
    (hP : ∀ m x y, x < 64 → y < 32 → P m → P (m.xorPixel x y).2)
    (b : Byte) (x y : Nat) (acc : Bool × Memory) (c : Nat) (h : P acc.2) : P (plotColumn b x y acc c).2 := by
  unfold plotColumn
  split
  · exact hP _ _ _ (by omega) (by omega) h
  · exact h

/-- The same after a fold of steps that each keep it. -/
theorem foldl_keeps {α : Type} {P : Memory → Prop} {f : Bool × Memory → α → Bool × Memory}
    (hf : ∀ acc a, P acc.2 → P (f acc a).2) (l : List α) :
    ∀ acc : Bool × Memory, P acc.2 → P (l.foldl f acc).2 := by
  induction l with
  | nil => intro acc h; exact h
  | cons a rest ih => intro acc h; exact ih _ (hf acc a h)

/-- What every toggle of a screen pixel keeps, a whole sprite keeps. -/
theorem drawRows_induction {P : Memory → Prop}
    (hP : ∀ m x y, x < 64 → y < 32 → P m → P (m.xorPixel x y).2)
    (base x y n : Nat) (m : Memory) (h : P m) : P (drawRows base x y n m).2 :=
  foldl_keeps (fun acc _ hacc =>
    foldl_keeps (fun acc' c hacc' => plotColumn_induction hP _ _ _ acc' c hacc') _ acc hacc) _ _ h

/-- A sprite changes no byte outside the framebuffer. -/
theorem read_drawRows_outside (base x y n : Nat) (m : Memory) (a : Nat) (ha : ¬ (0xF00 ≤ a ∧ a < 0x1000)) :
    (drawRows base x y n m).2.read a = m.read a := by
  refine drawRows_induction (P := fun m' => m'.read a = m.read a) (fun m' px py hx hy h => ?_) base x y n m rfl
  have := pixelAddress_range hx hy
  simp only [Memory.xorPixel, Memory.read_write]
  rw [if_neg (by omega), h]

/-- A sprite keeps the canonical form of memory. -/
theorem wf_drawRows (base x y n : Nat) {m : Memory} (h : m.wf) : (drawRows base x y n m).2.wf :=
  drawRows_induction (P := Memory.wf) (fun _ _ _ hx hy hm => Memory.wf_write hm (pixelAddress_range hx hy).2 _) base x y n m h

end Sys2Proof.Machine
end

