-- ==== Sys2Proof/Laws/PerInstr.lean ====
section
/-! SUPPORT. Laws about every instruction as a term: the word of a well-formed instruction has the fields that its
row of spec/opcode_table.json fixes. -/

namespace Sys2Proof.Laws

/-- The row of spec/opcode_table.json that an instruction stands for. -/
def rowOf : Instr → Nat
  | .cls => 0
  | .rts => 1
  | .jump _ => 2
  | .call _ => 3
  | .skipEqImm _ _ => 4
  | .skipNeImm _ _ => 5
  | .skipEqReg _ _ => 6
  | .movImm _ _ => 7
  | .addImm _ _ => 8
  | .mov _ _ => 9
  | .or _ _ => 10
  | .and _ _ => 11
  | .xor _ _ => 12
  | .add _ _ => 13
  | .sub _ _ => 14
  | .shr _ _ => 15
  | .subb _ _ => 16
  | .shl _ _ => 17
  | .skipNeReg _ _ => 18
  | .setI _ => 19
  | .jumpPlusV0 _ => 20
  | .randAnd _ _ => 21
  | .draw _ _ _ => 22
  | .skipKey _ => 23
  | .skipNoKey _ => 24
  | .getDelay _ => 25
  | .getKey _ => 26
  | .setDelay _ => 27
  | .setSound _ => 28
  | .addI _ => 29
  | .spriteChar _ => 30
  | .movBcd _ => 31
  | .regDump _ => 32
  | .regLoad _ => 33

/-- The encoding of a well-formed instruction matches its row of the opcode table. -/
def EncodesToItsRow.Statement (i : Instr) : Prop :=
  i.wellFormed = true → ∃ row, opcodeTable[rowOf i]? = some row ∧ rowMatches row (encode i) = true

theorem EncodesToItsRow.cls : EncodesToItsRow.Statement .cls :=
  fun _ => ⟨_, rfl, by decide⟩

theorem EncodesToItsRow.rts : EncodesToItsRow.Statement .rts :=
  fun _ => ⟨_, rfl, by decide⟩

theorem EncodesToItsRow.jump (nnn : BitVec 12) : EncodesToItsRow.Statement (.jump nnn) :=
  fun _ => ⟨_, rfl, by
    have hb := bits_wordNNN (h := 0x1) (by decide) nnn
    simp [rowMatches, encode, hb]⟩

theorem EncodesToItsRow.call (nnn : BitVec 12) : EncodesToItsRow.Statement (.call nnn) :=
  fun _ => ⟨_, rfl, by
    have hb := bits_wordNNN (h := 0x2) (by decide) nnn
    simp [rowMatches, encode, hb]⟩

theorem EncodesToItsRow.skipEqImm (x : Reg) (nn : Byte) : EncodesToItsRow.Statement (.skipEqImm x nn) :=
  fun _ => ⟨_, rfl, by
    have hb := bits_wordXNN (h := 0x3) (by decide) x nn
    simp [rowMatches, encode, hb]⟩

theorem EncodesToItsRow.skipNeImm (x : Reg) (nn : Byte) : EncodesToItsRow.Statement (.skipNeImm x nn) :=
  fun _ => ⟨_, rfl, by
    have hb := bits_wordXNN (h := 0x4) (by decide) x nn
    simp [rowMatches, encode, hb]⟩

theorem EncodesToItsRow.skipEqReg (x y : Reg) : EncodesToItsRow.Statement (.skipEqReg x y) :=
  fun _ => ⟨_, rfl, by
    have hb := bits_wordXYN (h := 0x5) (n := 0x0) (by decide) (by decide) x y
    simp [rowMatches, encode, hb]⟩

theorem EncodesToItsRow.movImm (x : Reg) (nn : Byte) : EncodesToItsRow.Statement (.movImm x nn) :=
  fun _ => ⟨_, rfl, by
    have hb := bits_wordXNN (h := 0x6) (by decide) x nn
    simp [rowMatches, encode, hb]⟩

theorem EncodesToItsRow.addImm (x : Reg) (nn : Byte) : EncodesToItsRow.Statement (.addImm x nn) :=
  fun _ => ⟨_, rfl, by
    have hb := bits_wordXNN (h := 0x7) (by decide) x nn
    simp [rowMatches, encode, hb]⟩

theorem EncodesToItsRow.mov (x y : Reg) : EncodesToItsRow.Statement (.mov x y) :=
  fun _ => ⟨_, rfl, by
    have hb := bits_wordXYN (h := 0x8) (n := 0x0) (by decide) (by decide) x y
    simp [rowMatches, encode, hb]⟩

theorem EncodesToItsRow.or (x y : Reg) : EncodesToItsRow.Statement (.or x y) :=
  fun _ => ⟨_, rfl, by
    have hb := bits_wordXYN (h := 0x8) (n := 0x1) (by decide) (by decide) x y
    simp [rowMatches, encode, hb]⟩

theorem EncodesToItsRow.and (x y : Reg) : EncodesToItsRow.Statement (.and x y) :=
  fun _ => ⟨_, rfl, by
    have hb := bits_wordXYN (h := 0x8) (n := 0x2) (by decide) (by decide) x y
    simp [rowMatches, encode, hb]⟩

theorem EncodesToItsRow.xor (x y : Reg) : EncodesToItsRow.Statement (.xor x y) :=
  fun _ => ⟨_, rfl, by
    have hb := bits_wordXYN (h := 0x8) (n := 0x3) (by decide) (by decide) x y
    simp [rowMatches, encode, hb]⟩

theorem EncodesToItsRow.add (x y : Reg) : EncodesToItsRow.Statement (.add x y) :=
  fun _ => ⟨_, rfl, by
    have hb := bits_wordXYN (h := 0x8) (n := 0x4) (by decide) (by decide) x y
    simp [rowMatches, encode, hb]⟩

theorem EncodesToItsRow.sub (x y : Reg) : EncodesToItsRow.Statement (.sub x y) :=
  fun _ => ⟨_, rfl, by
    have hb := bits_wordXYN (h := 0x8) (n := 0x5) (by decide) (by decide) x y
    simp [rowMatches, encode, hb]⟩

theorem EncodesToItsRow.shr (x y : Reg) : EncodesToItsRow.Statement (.shr x y) :=
  fun _ => ⟨_, rfl, by
    have hb := bits_wordXYN (h := 0x8) (n := 0x6) (by decide) (by decide) x y
    simp [rowMatches, encode, hb]⟩

theorem EncodesToItsRow.subb (x y : Reg) : EncodesToItsRow.Statement (.subb x y) :=
  fun _ => ⟨_, rfl, by
    have hb := bits_wordXYN (h := 0x8) (n := 0x7) (by decide) (by decide) x y
    simp [rowMatches, encode, hb]⟩

theorem EncodesToItsRow.shl (x y : Reg) : EncodesToItsRow.Statement (.shl x y) :=
  fun _ => ⟨_, rfl, by
    have hb := bits_wordXYN (h := 0x8) (n := 0xE) (by decide) (by decide) x y
    simp [rowMatches, encode, hb]⟩

theorem EncodesToItsRow.skipNeReg (x y : Reg) : EncodesToItsRow.Statement (.skipNeReg x y) :=
  fun _ => ⟨_, rfl, by
    have hb := bits_wordXYN (h := 0x9) (n := 0x0) (by decide) (by decide) x y
    simp [rowMatches, encode, hb]⟩

theorem EncodesToItsRow.setI (nnn : BitVec 12) : EncodesToItsRow.Statement (.setI nnn) :=
  fun _ => ⟨_, rfl, by
    have hb := bits_wordNNN (h := 0xA) (by decide) nnn
    simp [rowMatches, encode, hb]⟩

theorem EncodesToItsRow.jumpPlusV0 (nnn : BitVec 12) : EncodesToItsRow.Statement (.jumpPlusV0 nnn) :=
  fun _ => ⟨_, rfl, by
    have hb := bits_wordNNN (h := 0xB) (by decide) nnn
    simp [rowMatches, encode, hb]⟩

theorem EncodesToItsRow.randAnd (x : Reg) (nn : Byte) : EncodesToItsRow.Statement (.randAnd x nn) :=
  fun _ => ⟨_, rfl, by
    have hb := bits_wordXNN (h := 0xC) (by decide) x nn
    simp [rowMatches, encode, hb]⟩

theorem EncodesToItsRow.draw (x y : Reg) (n : Nat) : EncodesToItsRow.Statement (.draw x y n) :=
  fun hw => ⟨_, rfl, by
    have hb := bits_wordXYN (h := 0xD) (n := n) (by decide) (by simpa [Instr.wellFormed, Nat.lt_succ_iff] using hw) x y
    simp [rowMatches, encode, hb]⟩

theorem EncodesToItsRow.skipKey (x : Reg) : EncodesToItsRow.Statement (.skipKey x) :=
  fun _ => ⟨_, rfl, by
    have hb := bits_wordXNN (h := 0xE) (by decide) x 0x9E
    simp at hb
    simp [rowMatches, encode, hb]⟩

theorem EncodesToItsRow.skipNoKey (x : Reg) : EncodesToItsRow.Statement (.skipNoKey x) :=
  fun _ => ⟨_, rfl, by
    have hb := bits_wordXNN (h := 0xE) (by decide) x 0xA1
    simp at hb
    simp [rowMatches, encode, hb]⟩

theorem EncodesToItsRow.getDelay (x : Reg) : EncodesToItsRow.Statement (.getDelay x) :=
  fun _ => ⟨_, rfl, by
    have hb := bits_wordXNN (h := 0xF) (by decide) x 0x07
    simp at hb
    simp [rowMatches, encode, hb]⟩

theorem EncodesToItsRow.getKey (x : Reg) : EncodesToItsRow.Statement (.getKey x) :=
  fun _ => ⟨_, rfl, by
    have hb := bits_wordXNN (h := 0xF) (by decide) x 0x0A
    simp at hb
    simp [rowMatches, encode, hb]⟩

theorem EncodesToItsRow.setDelay (x : Reg) : EncodesToItsRow.Statement (.setDelay x) :=
  fun _ => ⟨_, rfl, by
    have hb := bits_wordXNN (h := 0xF) (by decide) x 0x15
    simp at hb
    simp [rowMatches, encode, hb]⟩

theorem EncodesToItsRow.setSound (x : Reg) : EncodesToItsRow.Statement (.setSound x) :=
  fun _ => ⟨_, rfl, by
    have hb := bits_wordXNN (h := 0xF) (by decide) x 0x18
    simp at hb
    simp [rowMatches, encode, hb]⟩

theorem EncodesToItsRow.addI (x : Reg) : EncodesToItsRow.Statement (.addI x) :=
  fun _ => ⟨_, rfl, by
    have hb := bits_wordXNN (h := 0xF) (by decide) x 0x1E
    simp at hb
    simp [rowMatches, encode, hb]⟩

theorem EncodesToItsRow.spriteChar (x : Reg) : EncodesToItsRow.Statement (.spriteChar x) :=
  fun _ => ⟨_, rfl, by
    have hb := bits_wordXNN (h := 0xF) (by decide) x 0x29
    simp at hb
    simp [rowMatches, encode, hb]⟩

theorem EncodesToItsRow.movBcd (x : Reg) : EncodesToItsRow.Statement (.movBcd x) :=
  fun _ => ⟨_, rfl, by
    have hb := bits_wordXNN (h := 0xF) (by decide) x 0x33
    simp at hb
    simp [rowMatches, encode, hb]⟩

theorem EncodesToItsRow.regDump (x : Reg) : EncodesToItsRow.Statement (.regDump x) :=
  fun _ => ⟨_, rfl, by
    have hb := bits_wordXNN (h := 0xF) (by decide) x 0x55
    simp at hb
    simp [rowMatches, encode, hb]⟩

theorem EncodesToItsRow.regLoad (x : Reg) : EncodesToItsRow.Statement (.regLoad x) :=
  fun _ => ⟨_, rfl, by
    have hb := bits_wordXNN (h := 0xF) (by decide) x 0x65
    simp at hb
    simp [rowMatches, encode, hb]⟩

end Sys2Proof.Laws
end

