-- ==== Sys2Proof/Machine/Disassembly.lean ====
section
/-! DEFINITION. The text form of a decoded word (spec/30_encoding.md R110). It has no effect on execution (R112,
spec/60_exceptions.md R257): nothing else of the machine uses it. -/

namespace Sys2Proof.Machine

/-- One uppercase hexadecimal digit. -/
def hexDigit (n : Nat) : String :=
  String.ofList [("0123456789ABCDEF".toList).getD (n % 16) '0']

/-- A register name: V and one hex digit (spec/30_encoding.md R110). -/
def regName (r : Reg) : String := "V" ++ hexDigit r.val

/-- A byte literal: #$ and two hex digits (spec/30_encoding.md R110). -/
def byteLiteral (b : Byte) : String := "#$" ++ hexDigit (b.toNat / 16) ++ hexDigit b.toNat

/-- A nibble literal: #$ and one hex digit (spec/30_encoding.md R110). -/
def nibbleLiteral (n : Nat) : String := "#$" ++ hexDigit n

/-- The three hex digits of an address. -/
def addressDigits (nnn : BitVec 12) : String :=
  hexDigit (nnn.toNat / 256) ++ hexDigit (nnn.toNat / 16) ++ hexDigit nnn.toNat

/-- The operands of SHR. and SHL.: y is written only to spell a y other than 0 (spec/30_encoding.md R110). -/
def shiftOperands (x y : Reg) : String :=
  if y = 0 then regName x else regName x ++ "," ++ regName y

/-- The syntax of an instruction (spec/30_encoding.md R110). -/
def disassembleInstr : Instr → String
  | .cls => "CLS"
  | .rts => "RTS"
  | .jump nnn => "JUMP $" ++ addressDigits nnn
  | .call nnn => "CALL $" ++ addressDigits nnn
  | .skipEqImm x nn => "SKIP.EQ " ++ regName x ++ "," ++ byteLiteral nn
  | .skipNeImm x nn => "SKIP.NE " ++ regName x ++ "," ++ byteLiteral nn
  | .skipEqReg x y => "SKIP.EQ " ++ regName x ++ "," ++ regName y
  | .movImm x nn => "MVI " ++ regName x ++ "," ++ byteLiteral nn
  | .addImm x nn => "ADI " ++ regName x ++ "," ++ byteLiteral nn
  | .mov x y => "MOV. " ++ regName x ++ "," ++ regName y
  | .or x y => "OR. " ++ regName x ++ "," ++ regName y
  | .and x y => "AND. " ++ regName x ++ "," ++ regName y
  | .xor x y => "XOR. " ++ regName x ++ "," ++ regName y
  | .add x y => "ADD. " ++ regName x ++ "," ++ regName y
  | .sub x y => "SUB. " ++ regName x ++ "," ++ regName y
  | .shr x y => "SHR. " ++ shiftOperands x y
  | .subb x y => "SUBB. " ++ regName x ++ "," ++ regName y
  | .shl x y => "SHL. " ++ shiftOperands x y
  | .skipNeReg x y => "SKIP.NE " ++ regName x ++ "," ++ regName y
  | .setI nnn => "MVI I,#$" ++ addressDigits nnn
  | .jumpPlusV0 nnn => "JUMP $" ++ addressDigits nnn ++ "(V0)"
  | .randAnd x nn => "RNDMSK " ++ regName x ++ "," ++ byteLiteral nn
  | .draw x y n => "SPRITE " ++ regName x ++ "," ++ regName y ++ "," ++ nibbleLiteral n
  | .skipKey x => "SKIPKEY.Y " ++ regName x
  | .skipNoKey x => "SKIPKEY.N " ++ regName x
  | .getDelay x => "MOV " ++ regName x ++ ",DELAY"
  | .getKey x => "WAITKEY " ++ regName x
  | .setDelay x => "MOV DELAY," ++ regName x
  | .setSound x => "MOV SOUND," ++ regName x
  | .addI x => "ADI I," ++ regName x
  | .spriteChar x => "SPRITECHAR " ++ regName x
  | .movBcd x => "MOVBCD " ++ regName x
  | .regDump x => "MOVM (I),V0-" ++ regName x
  | .regLoad x => "MOVM V0-" ++ regName x ++ ",(I)"

/-- The listing of a decoded word; an illegal word is written .word $hhhh (spec/30_encoding.md R110). -/
def disassemble : Decoded → String
  | .instr i => disassembleInstr i
  | .decodeError byte1 byte2 =>
    ".word $" ++ hexDigit (byte1.toNat / 16) ++ hexDigit byte1.toNat ++ hexDigit (byte2.toNat / 16) ++
      hexDigit byte2.toNat

end Sys2Proof.Machine
end

