-- ==== Sys2Proof/Tests/Slice0.lean ====
section
/-! SUPPORT. Tests of the model and witnesses for the statements' hypotheses. Every expected value comes from
spec/30_encoding.md R96 to R98, spec/95_test_vectors.md (the vector is named), or is worked out by hand from the rule
named. A theorem named witness_... shows that the hypotheses of the statement it names can be met. -/

namespace Sys2Proof.Tests

open Sys2Proof Sys2Proof.Machine

/-! ### Well-formedness -/

/-- The one check of wellFormed: the row count of SPRITE is at most 15. -/
theorem test_wellFormed_rows :
    (Instr.draw 0 0 16).wellFormed = false ∧ (Instr.draw 0 0 256).wellFormed = false ∧
    (Instr.draw 15 15 15).wellFormed = true ∧ (Instr.draw 0 0 0).wellFormed = true := by decide

/-! ### Decoding: words written out from spec/30_encoding.md R96 -/

/-- The words with an address literal, and the two exact words. -/
theorem test_decode_nnn :
    decode 0x00 0xE0 = .instr .cls ∧ decode 0x00 0xEE = .instr .rts ∧
    decode 0x1F 0xFF = .instr (.jump 0xFFF) ∧ decode 0x23 0x00 = .instr (.call 0x300) ∧
    decode 0xA1 0x23 = .instr (.setI 0x123) ∧ decode 0xB4 0x56 = .instr (.jumpPlusV0 0x456) := by decide

/-- The words with a register and a byte literal. -/
theorem test_decode_xnn :
    decode 0x3A 0xF5 = .instr (.skipEqImm 10 0xF5) ∧ decode 0x40 0x07 = .instr (.skipNeImm 0 0x07) ∧
    decode 0x61 0x7B = .instr (.movImm 1 0x7B) ∧ decode 0x7F 0x01 = .instr (.addImm 15 0x01) ∧
    decode 0xC2 0xFE = .instr (.randAnd 2 0xFE) := by decide

/-- The words with two registers: 5XY0, 9XY0, DXYN and group 0x8. -/
theorem test_decode_xy :
    decode 0x51 0x20 = .instr (.skipEqReg 1 2) ∧ decode 0x91 0x20 = .instr (.skipNeReg 1 2) ∧
    decode 0xD1 0x2F = .instr (.draw 1 2 15) ∧ decode 0x81 0x20 = .instr (.mov 1 2) ∧
    decode 0x81 0x21 = .instr (.or 1 2) ∧ decode 0x81 0x22 = .instr (.and 1 2) ∧
    decode 0x81 0x23 = .instr (.xor 1 2) ∧ decode 0x81 0x24 = .instr (.add 1 2) ∧
    decode 0x81 0x25 = .instr (.sub 1 2) ∧ decode 0x8F 0x06 = .instr (.shr 15 0) ∧
    decode 0x81 0x27 = .instr (.subb 1 2) ∧ decode 0x81 0x2E = .instr (.shl 1 2) := by decide

/-- The words of groups 0xE and 0xF. -/
theorem test_decode_x :
    decode 0xE1 0x9E = .instr (.skipKey 1) ∧ decode 0xE2 0xA1 = .instr (.skipNoKey 2) ∧
    decode 0xF3 0x07 = .instr (.getDelay 3) ∧ decode 0xF4 0x0A = .instr (.getKey 4) ∧
    decode 0xF5 0x15 = .instr (.setDelay 5) ∧ decode 0xF6 0x18 = .instr (.setSound 6) ∧
    decode 0xF7 0x1E = .instr (.addI 7) ∧ decode 0xF8 0x29 = .instr (.spriteChar 8) ∧
    decode 0xF9 0x33 = .instr (.movBcd 9) ∧ decode 0xFA 0x55 = .instr (.regDump 10) ∧
    decode 0xFB 0x65 = .instr (.regLoad 11) := by decide

/-- Illegal words of every group that has some (vector table L2.1). -/
theorem test_decode_illegal :
    decode 0x00 0x00 = .decodeError 0x00 0x00 ∧ decode 0x00 0xE1 = .decodeError 0x00 0xE1 ∧
    decode 0x01 0x23 = .decodeError 0x01 0x23 ∧ decode 0x51 0x21 = .decodeError 0x51 0x21 ∧
    decode 0x81 0x28 = .decodeError 0x81 0x28 ∧ decode 0x81 0x2D = .decodeError 0x81 0x2D ∧
    decode 0x81 0x2F = .decodeError 0x81 0x2F ∧ decode 0x91 0x21 = .decodeError 0x91 0x21 ∧
    decode 0xE0 0xA2 = .decodeError 0xE0 0xA2 ∧ decode 0xE1 0x9F = .decodeError 0xE1 0x9F ∧
    decode 0xF0 0x08 = .decodeError 0xF0 0x08 ∧ decode 0xF0 0x75 = .decodeError 0xF0 0x75 := by decide

/-- Encodings, and the table word, which counts bit 0 as the low bit of the second byte. -/
theorem test_encode_and_table_word :
    encode (.draw 13 1 2) = 0xDD12 ∧ encode (.shl 1 2) = 0x812E ∧ encode (.regLoad 15) = 0xFF65 ∧
    encode (.call 0xABC) = 0x2ABC ∧ decodeTableWord 16 0x617B = some (.movImm 1 0x7B) ∧
    decodeTableWord 16 0x0123 = none := by decide

/-- Witness of Obligations.DecodeOfEncodeIsTheInstruction and EncodeOfDecodeIsTheWord, at a largest row count and at a
shift whose ignored y is not 0. -/
theorem witness_round_trips :
    (Instr.draw 3 4 15).wellFormed = true ∧ decode 0xD3 0x4F = .instr (.draw 3 4 15) ∧
    decode 0x81 0x26 = .instr (.shr 1 2) ∧ encode (.shr 1 2) = wordOf 0x81 0x26 := by decide

/-- The listing (spec/30_encoding.md R110). -/
theorem test_disassemble :
    disassemble (decode 0xF3 0x55) = "MOVM (I),V0-V3" ∧ disassemble (decode 0x00 0x00) = ".word $0000" ∧
    disassemble (decode 0x81 0x26) = "SHR. V1,V2" ∧ disassemble (decode 0x81 0x06) = "SHR. V1" ∧
    disassemble (decode 0xB3 0x0A) = "JUMP $30A(V0)" := by decide

/-! ### One step on a small state -/

/-- The reply and the state after one step with this word where the next fetch reads. -/
def after (w : Nat) (s : State) : StepReply × State := hostStep (s.withFetchWord 16 w)

/-- The reset state with these two registers set. -/
def withV (x y : Reg) (a b : Byte) : State := (State.reset.setV x a).setV y b

/-- The reset state with this I and these bytes from this address. -/
def withMem (i : Word) (base : Nat) (bytes : List Byte) : State :=
  (State.reset.setI i).setMem (Memory.writeBytes [] base bytes)

/-- The reset state with these keys pressed. -/
def withKeys (k j : Fin 16) : State :=
  { State.reset with keypad := (State.reset.keypad.set k.val true).set j.val true }

/-- The reset state with this stack pointer and the entry 0x456 below it. -/
def withStack (sp : Fin 17) : State :=
  { State.reset with sp := sp, stack := State.reset.stack.setIfInBounds (sp.val - 1) 0x456 }

/-- The next state of an outcome, if it has one. -/
def nextOf (r : Result) : Option State :=
  match r with
  | .next t => some t
  | .fault _ => none
  | .refused _ => none

/-- nextOf is some exactly for a next state: a witness given through it meets a hypothesis `exec i s = .next t`. -/
theorem nextOf_eq_some (r : Result) (t : State) : nextOf r = some t ↔ r = .next t := by
  cases r <;> simp [nextOf]

/-- The core after it raised StackUnderflow at 0x200 (vector V2.3). -/
def underflowed : State := (after 0x00EE State.reset).2

/-- Vector V1.1. -/
theorem test_cls :
    let r := after 0x00E0 ((withMem 0 0xF00 [0xFF]).setV VF 7)
    r.1 = .ok ∧ r.2.mem.read 0xF00 = 0 ∧ r.2.getV VF = 7 ∧ r.2.pc = 0x202 := by decide

/-- The last framebuffer byte of V1.1, a byte below the framebuffer, and a PC inside it: the word that CLS leaves there
is illegal (40_display.md R123). Witness of the last clause of Obligations.ClearScreenZeroesTheFramebuffer. -/
theorem test_cls_edges :
    let r := after 0x00E0 ((withMem 0 0xEFF [0x11, 0x22]).setPc 0xF10)
    r.2.mem.read 0xEFF = 0x11 ∧ r.2.status = .running ∧ r.2.pc = 0xF12 ∧
    hostStep r.2 = (.decodeError 0 0, r.2) ∧ clearFramebuffer (Memory.write [] 0xFFF 1) = [] := by decide

/-- Vectors V2.5 and, at SP = 0, V2.3. Witness of both clauses of Obligations.RtsPopsTheReturnAddress, at SP = 1 too. -/
theorem test_rts :
    let r := after 0x00EE (withStack 3)
    r.1 = .ok ∧ r.2.sp = 2 ∧ r.2.pc = 0x456 ∧ r.2.stack[2] = 0x456 ∧
    (after 0x00EE (withStack 1)).2.sp = 0 ∧
    after 0x00EE State.reset =
      (.machineFault .stackUnderflow 0x200,
        { State.reset.withFetchWord 16 0x00EE with status := .faulted .stackUnderflow 0x200 }) := by decide

/-- Vectors V2.1 and V2.14. -/
theorem test_jump :
    (after 0x1228 State.reset).2.pc = 0x228 ∧ (after 0x1FFE (State.reset.setPc 0xFFE)).2.pc = 0xFFE := by decide

/-- The premises of Obligations.JumpSetsPc's last clauses: a self-jump, and JUMP $FFF while Running. -/
theorem witness_jump_edges :
    (0xFFE : BitVec 12).toNat = (State.reset.setPc 0xFFE).pc.toNat ∧
    nextOf (exec (.jump 0xFFE) (State.reset.setPc 0xFFE)) = some (State.reset.setPc 0xFFE) ∧
    (after 0x1FFF State.reset).2.status = .running ∧
    (hostStep (after 0x1FFF State.reset).2).1 = .machineFault .fetchOutOfRange 0xFFF := by decide

/-- Vector V2.2, and the last free entry. -/
theorem test_call :
    let r := after 0x2300 State.reset
    r.2.stack[0] = 0x202 ∧ r.2.sp = 1 ∧ r.2.pc = 0x300 ∧
    (after 0x2300 (withStack 15)).2.sp = 16 ∧ (after 0x2300 (withStack 15)).2.stack[15] = 0x202 := by decide

/-- Vector V2.4. With test_call, a witness of both clauses of Obligations.CallPushesTheReturnAddress. -/
theorem test_call_full :
    after 0x2200 (withStack 16) =
      (.machineFault .stackOverflow 0x200,
        { (withStack 16).withFetchWord 16 0x2200 with status := .faulted .stackOverflow 0x200 }) := by decide

/-- Witness of Obligations.NestedCallsReturn: two calls that fill the stack, and their returns. -/
theorem witness_nested_calls :
    [(0x300 : BitVec 12), 0x400] ≠ [] ∧ (withStack 14).sp.val + 2 ≤ 16 ∧
    ((execAll [.call 0x300, .call 0x400, .rts, .rts] (withStack 14)).map fun t => (t.pc, t.sp)) =
      some (0x202, 14) := by decide

/-- Vectors V2.6 and V2.7. -/
theorem test_jumpPlusV0 :
    (after 0xB300 (State.reset.setV 0 0x10)).2.pc = 0x310 ∧
    (after 0xBFFF (State.reset.setV 0 0xFF)).2.pc = 0x10FE := by decide

/-- Vectors V2.8 and V2.9. -/
theorem test_skips_on_a_literal :
    (after 0x3305 (State.reset.setV 3 5)).2.pc = 0x204 ∧ (after 0x3306 (State.reset.setV 3 5)).2.pc = 0x202 ∧
    (after 0x4306 (State.reset.setV 3 5)).2.pc = 0x204 ∧
    (after 0x4305 (State.reset.setV 3 5)).2.pc = 0x202 := by decide

/-- Vectors V2.10 and V2.11. -/
theorem test_skips_on_registers :
    (after 0x5120 (withV 1 2 7 7)).2.pc = 0x204 ∧ (after 0x5120 (withV 1 2 7 8)).2.pc = 0x202 ∧
    (after 0x9120 (withV 1 2 7 8)).2.pc = 0x204 ∧ (after 0x9110 (withV 1 2 7 8)).2.pc = 0x202 := by decide

/-- Vectors V3.1 and V3.5. -/
theorem test_moves :
    (after 0x617B State.reset).2.getV 1 = 0x7B ∧ (after 0x8120 (State.reset.setV 2 0x55)).2.getV 1 = 0x55 := by
  decide

/-- Vectors V3.2 and V3.4. -/
theorem test_addImm :
    (after 0x7120 (withV 1 15 0xF0 7)).2.getV 1 = 0x10 ∧ (after 0x7120 (withV 1 15 0xF0 7)).2.getV VF = 7 ∧
    (after 0x7F01 (State.reset.setV 15 0xFF)).2.getV VF = 0 := by decide

/-- Vector V3.6. -/
theorem test_bitwise :
    let s := (withV 1 2 0x0C 0x0A).setV 15 9
    (after 0x8121 s).2.getV 1 = 0x0E ∧ (after 0x8122 s).2.getV 1 = 0x08 ∧ (after 0x8123 s).2.getV 1 = 0x06 ∧
    (after 0x8121 s).2.getV VF = 9 ∧ (after 0x8122 s).2.getV VF = 9 ∧ (after 0x8123 s).2.getV VF = 9 := by decide

/-- Vectors V3.8, V3.9 and V3.10. -/
theorem test_add :
    (after 0x8124 (withV 1 2 0xFF 0x01)).2.getV 1 = 0 ∧ (after 0x8124 (withV 1 2 0xFF 0x01)).2.getV VF = 1 ∧
    (after 0x8124 (withV 1 2 0x10 0x20)).2.getV 1 = 0x30 ∧
    (after 0x8124 (withV 1 2 0x10 0x20)).2.getV VF = 0 ∧
    (after 0x8114 (State.reset.setV 1 0x80)).2.getV 1 = 0 := by decide

/-- Vectors V3.12, V3.13 and V3.14: VF as destination and as source. -/
theorem test_add_flag_register :
    (after 0x8FF4 (State.reset.setV 15 0x7F)).2.getV VF = 0 ∧
    (after 0x8F14 (withV 15 1 0xFF 0x01)).2.getV VF = 1 ∧
    (after 0x81F4 (withV 1 15 0x01 0xFF)).2.getV 1 = 0 ∧
    (after 0x81F4 (withV 1 15 0x01 0xFF)).2.getV VF = 1 := by decide

/-- Vectors V3.16, V3.17 and V3.18. -/
theorem test_sub :
    (after 0x8125 (withV 1 2 0x03 0x05)).2.getV 1 = 0xFE ∧ (after 0x8125 (withV 1 2 0x03 0x05)).2.getV VF = 0 ∧
    (after 0x8115 (State.reset.setV 1 0x05)).2.getV VF = 1 ∧
    (after 0x8F15 (withV 15 1 0x05 0x03)).2.getV VF = 1 := by decide

/-- Vectors V3.20, V3.21 and V3.22. -/
theorem test_subb :
    (after 0x8127 (withV 1 2 0x05 0x03)).2.getV 1 = 0xFE ∧ (after 0x8127 (withV 1 2 0x05 0x03)).2.getV VF = 0 ∧
    (after 0x8F17 (withV 15 1 0x05 0x03)).2.getV VF = 0 ∧
    (after 0x81F7 (withV 1 15 0x03 0x05)).2.getV 1 = 0x02 := by decide

/-- Vectors V3.24 and V3.27. -/
theorem test_shr :
    (after 0x8126 (State.reset.setV 1 0xFF)).2.getV 1 = 0x7F ∧
    (after 0x8126 (State.reset.setV 1 0xFF)).2.getV VF = 1 ∧
    (after 0x8F06 (State.reset.setV 15 0x03)).2.getV VF = 0 := by decide

/-- Vectors V3.25, V3.26 and V3.28. -/
theorem test_shl :
    (after 0x810E (State.reset.setV 1 0x81)).2.getV 1 = 0x02 ∧
    (after 0x810E (State.reset.setV 1 0x81)).2.getV VF = 1 ∧
    (after 0x810E (State.reset.setV 1 0x40)).2.getV VF = 0 ∧
    (after 0x8F0E (State.reset.setV 15 0x81)).2.getV VF = 0x02 := by decide

/-- Vector V3.31: whatever byte is drawn, the mask 0 leaves 0; and the draw is counted. -/
theorem test_randAnd :
    (after 0xC100 (State.reset.setV 1 0x55)).2.getV 1 = 0 ∧ (after 0xC1FF State.reset).2.draws = 1 := by
  refine ⟨?_, rfl⟩
  show Config.randByte 0 &&& 0#8 = 0#8
  exact BitVec.and_zero

/-- Vectors V4.1, V4.3 and V4.4. -/
theorem test_index :
    (after 0xA123 State.reset).2.i = 0x123 ∧
    (after 0xF11E (((State.reset.setI 0xFFFF).setV 1 2).setV 15 5)).2.i = 1 ∧
    (after 0xF11E (((State.reset.setI 0xFFFF).setV 1 2).setV 15 5)).2.getV VF = 5 ∧
    (after 0xF11E ((State.reset.setI 0xFFF).setV 1 1)).2.i = 0x1000 := by decide

/-- Vectors V4.5 and V4.6. -/
theorem test_spriteChar :
    (after 0xF129 (State.reset.setV 1 0x0A)).2.i = 0x032 ∧
    (after 0xF129 (State.reset.setV 1 0xFF)).2.i = 0x4FB := by decide

/-- Vector V4.8, the highest range that fits. -/
theorem test_movBcd :
    let r := after 0xF233 ((State.reset.setI 0xFFD).setV 2 255)
    r.1 = .ok ∧ r.2.mem.readBytes 0xFFD 3 = [2, 5, 5] ∧ r.2.i = 0xFFD := by decide

/-- Vector V4.9. With test_movBcd, a witness of both clauses of Obligations.BcdStoresThreeDigits. -/
theorem test_movBcd_out_of_range :
    let r := after 0xF233 ((State.reset.setI 0xFFE).setV 2 255)
    r.1 = .machineFault .dataOutOfRange 0x1000 ∧ r.2.mem.readBytes 0xFFD 3 = [0, 0, 0] := by decide

/-- Vectors V4.15 and V4.10 (with V1 = 1 and VF = 15), the latter the highest range that fits. -/
theorem test_regDump :
    (after 0xF055 ((State.reset.setI 0x400).setV 0 0xAB)).2.mem.readBytes 0x400 2 = [0xAB, 0] ∧
    (after 0xFF55 ((withV 1 15 1 15).setI 0xFF0)).2.mem.readBytes 0xFF0 2 = [0, 1] ∧
    (after 0xFF55 ((withV 1 15 1 15).setI 0xFF0)).2.mem.read 0xFFF = 15 := by decide

/-- Vector V4.11. With test_regDump, a witness of both clauses of Obligations.RegisterDumpStoresV0ToVx. -/
theorem test_regDump_out_of_range :
    (after 0xFF55 ((withV 1 15 1 15).setI 0xFF1)).1 = .machineFault .dataOutOfRange 0x1000 ∧
    (after 0xFF55 ((withV 1 15 1 15).setI 0xFF1)).2.mem.read 0xFF2 = 0 := by decide

/-- Vector V4.13, and V4.14 at the highest range that fits. -/
theorem test_regLoad :
    let r := after 0xF265 (withMem 0x400 0x400 [1, 2, 3])
    r.2.getV 0 = 1 ∧ r.2.getV 1 = 2 ∧ r.2.getV 2 = 3 ∧ r.2.i = 0x400 ∧
    (after 0xFF65 (withMem 0xFF0 0xFFF [0x77])).2.getV VF = 0x77 := by decide

/-- Vector V4.12, and the lowest I that is too high. With test_regLoad, a witness of both clauses of
Obligations.RegisterLoadReadsV0ToVx. -/
theorem test_regLoad_out_of_range :
    (after 0xF065 (State.reset.setI 0x1234)).1 = .machineFault .dataOutOfRange 0x1234 ∧
    (after 0xFF65 (State.reset.setI 0xFF1)).1 = .machineFault .dataOutOfRange 0x1000 := by decide

/-- Witness of Obligations.DumpThenLoadRestoresRegisters: between dump and load the registers changed. -/
theorem witness_dump_then_load :
    let s := ((State.reset.setI 0x400).setV 0 0xAB).setV 1 0xCD
    let t := (s.setMem (s.mem.writeBytes 0x400 [0xAB, 0xCD])).advance
    let u := t.setV 0 0x11
    s.i.toNat + (1 : Reg).val ≤ 0xFFF ∧ nextOf (exec (.regDump 1) s) = some t ∧ u.i = s.i ∧ u.mem = t.mem := by decide

/-- Witness of Obligations.StoredBytesAreFetched: 0xA123 stored at 0x400 is the word fetched there. -/
theorem witness_stored_bytes :
    let s := ((State.reset.setI 0x400).setV 0 0xA1).setV 1 0x23
    let t := (s.setMem (s.mem.writeBytes 0x400 [0xA1, 0x23])).advance
    1 ≤ (1 : Reg).val ∧ s.i.toNat + (1 : Reg).val ≤ 0xFFF ∧ nextOf (exec (.regDump 1) s) = some t ∧
    State.fetchBytes (t.setPc s.i) = some (0xA1, 0x23) := by decide

/-- Vectors V1.3, V1.4 and V1.8. -/
theorem test_sprite :
    let s := withMem 0x300 0x300 [0xFF]
    let edge := (after 0xD011 (s.setV 0 60)).2
    edge.mem.read 0xF07 = 0x0F ∧ edge.mem.read 0xF00 = 0xF0 ∧ edge.getV VF = 0 ∧
    (after 0xD011 ((s.setV 0 200).setV 1 33)).2.mem.read 0xF09 = 0xFF ∧
    (after 0xD011 (s.setMem [(0x300, 0x81), (0xF00, 0x01)])).2.mem.read 0xF00 = 0x80 ∧
    (after 0xD011 (s.setMem [(0x300, 0x81), (0xF00, 0x01)])).2.getV VF = 1 := by decide +kernel

/-- Vectors V1.5 (VF as coordinate) and V1.11 (a sprite inside the framebuffer). -/
theorem test_sprite_order :
    (after 0xDFF1 ((withMem 0x300 0x300 [0x80]).setV 15 3)).2.mem.read 0xF18 = 0x10 ∧
    let r := after 0xD012 ((withMem 0xF00 0xF00 [0xAA, 0x0F]).setV 0 8)
    r.2.mem.read 0xF01 = 0xA5 ∧ r.2.mem.read 0xF09 = 0xA5 ∧ r.2.getV VF = 1 := by decide +kernel

/-- Vectors V1.6, V1.9 and V1.10: no rows, the last range that fits, the first that does not. Witness of every clause of
Obligations.SpriteTogglesItsPixelsRowByRow. -/
theorem test_sprite_range :
    (after 0xD000 ((State.reset.setI 0xFFFF).setV 15 1)).1 = .ok ∧
    (after 0xD000 ((State.reset.setI 0xFFFF).setV 15 1)).2.getV VF = 0 ∧
    (after 0xD005 (State.reset.setI 0xFFB)).1 = .ok ∧
    (after 0xD005 (State.reset.setI 0xFFC)).1 = .machineFault .dataOutOfRange 0x1000 := by decide +kernel

/-- Witness of Obligations.SpriteTwiceRestoresTheScreen (example L1.5): two next states, equal coordinates, and the
collision on the second draw only. -/
theorem witness_sprite_twice :
    let s := withMem 0x300 0x300 [0xFF]
    let t := (s.setMem [(0x300, 0xFF), (0xF00, 0xFF)]).advance
    let u := (t.setMem [(0x300, 0xFF)]).advance
    s.i.toNat + 1 ≤ 0xF00 ∧ nextOf (exec (.draw 0 1 1) s) = some t ∧ t.getV 0 = s.getV 0 ∧ t.getV 1 = s.getV 1 ∧
    nextOf (exec (.draw 0 1 1) t) = some (u.setV VF 1) := by decide +kernel

/-- Witness of Obligations.XorPixelTogglesOnePixel, at the last pixel (spec/20_memory.md R62). -/
theorem witness_xorPixel :
    (63 : Nat) < 64 ∧ (31 : Nat) < 32 ∧ Memory.xorPixel [] 63 31 = (false, [(0xFFF, 0x01)]) ∧
    Memory.xorPixel [(0xFFF, 0x01)] 63 31 = (true, []) := by decide

/-- Vectors V5.1 and V5.2. -/
theorem test_skipKey :
    (after 0xE19E ((withKeys 5 5).setV 1 5)).2.pc = 0x204 ∧ (after 0xE1A1 ((withKeys 5 5).setV 1 5)).2.pc = 0x202 ∧
    (after 0xE19E (State.reset.setV 1 5)).2.pc = 0x202 ∧ (after 0xE1A1 (State.reset.setV 1 5)).2.pc = 0x204 := by
  decide

/-- Vectors V5.3 and V5.4, and the last key. Witness of both clauses of Obligations.KeySkipsTestTheNamedKey, and
of the clause of Obligations.KeypadBelongsToTheHost on the two skips. -/
theorem test_skipKey_range :
    (after 0xE19E ((withKeys 15 15).setV 1 15)).2.pc = 0x204 ∧
    (after 0xE19E (State.reset.setV 1 0x10)).1 = .machineFault .keyIndexOutOfRange 0x10 ∧
    (after 0xE1A1 (State.reset.setV 1 0xFF)).1 = .machineFault .keyIndexOutOfRange 0xFF ∧
    (after 0xE1A1 (State.reset.setV 1 0xFF)).2.pc = 0x200 := by decide

/-- Vectors V5.5, V5.6 and V5.7. Witness of both clauses of Obligations.WaitKeyHoldsUntilAKeyIsPressed. -/
theorem test_waitKey :
    after 0xF00A State.reset = (.ok, State.reset.withFetchWord 16 0xF00A) ∧
    (after 0xF00A (withKeys 9 3)).2.getV 0 = 3 ∧ (after 0xF00A (withKeys 9 3)).2.pc = 0x202 ∧
    (after 0xFF0A (withKeys 15 15)).2.getV VF = 0x0F := by decide

/-- Vectors V5.8, V5.9 and V5.10. -/
theorem test_timer_moves :
    (after 0xF307 (State.reset.setDelay 0x3C)).2.getV 3 = 0x3C ∧
    (after 0xF315 (State.reset.setV 3 0x3C)).2.dt = 0x3C ∧ (after 0xF318 (State.reset.setV 3 2)).2.st = 2 := by
  decide

/-! ### The step, the faults and the host -/

/-- Vectors V2.15 and V2.12: the fetch at and past the last fetchable address. Witness of the Running clauses of
Obligations.HostStepFollowsItsPseudocode and of Obligations.StepRunsTheDecodedInstruction. -/
theorem test_fetch_edges :
    hostStep (State.reset.setPc 0xFFF) =
      (.machineFault .fetchOutOfRange 0xFFF, (State.reset.setPc 0xFFF).enterFault .fetchOutOfRange 0xFFF) ∧
    (hostStep ((withMem 0 0xFFE [0x12, 0x34]).setPc 0xFFE)).1 = .ok ∧
    (hostStep ((withMem 0 0xFFE [0x12, 0x34]).setPc 0xFFE)).2.pc = 0x234 ∧
    decode ((withMem 0 0xFFE [0x12, 0x34]).mem.read 0xFFE) ((withMem 0 0xFFE [0x12, 0x34]).mem.read 0xFFF) =
      .instr (.jump 0x234) ∧
    (hostStep (State.reset.setPc 0xFFE)).1 = .decodeError 0 0 := by decide

/-- Vectors V2.13 and V6.8: odd and zero words. Witness of Obligations.DecodeErrorRepeats, with host operations
between the steps. -/
theorem test_decode_error :
    hostStep ((withMem 0 0x200 [0x12, 0x01]).setPc 0x201) =
      (.decodeError 0x01 0x00, (withMem 0 0x200 [0x12, 0x01]).setPc 0x201) ∧
    hostStep State.reset = (.decodeError 0x00 0x00, State.reset) ∧
    State.reset.status = .running ∧ (∀ op ∈ [HostOp.tick, .step, .framebuffer], ∀ rom, op ≠ .loadRom rom) ∧
    hostStep (hostRun defaultParams [.tick, .step, .framebuffer] State.reset) =
      (.decodeError 0x00 0x00, State.reset) := by
  refine ⟨by decide, by decide, rfl, ?_, by decide⟩
  intro op h rom
  fin_cases h <;> simp

/-- Vectors V6.3, V6.4 and V6.5. Witness of Obligations.FaultedCoreIsStuckUntilLoad and of the first clause of
Obligations.HostStepFollowsItsPseudocode. -/
theorem test_faulted :
    let s := underflowed.setDelay 3
    s.status = .faulted .stackUnderflow 0x200 ∧ hostStep s = (.machineFault .stackUnderflow 0x200, s) ∧
    s.tick.dt = 2 ∧ ([0x12, 0x00] : List Byte).length ≤ defaultParams.romMax.val ∧
    (s.loadRom defaultParams [0x12, 0x00]).2.status = .running ∧
    (hostStep (s.loadRom defaultParams [0x12, 0x00]).2).2.pc = 0x200 := by decide +kernel

/-- Witness of both clauses of Obligations.FaultsAreThoseOfTheTable, at the boundary of each of its conditions. -/
theorem witness_raisedBy :
    raisedBy (withStack 16) (.call 0) = some (.stackOverflow, 0x200) ∧ raisedBy (withStack 15) (.call 0) = none ∧
    raisedBy (withStack 0) .rts = some (.stackUnderflow, 0x200) ∧ raisedBy (withStack 1) .rts = none ∧
    raisedBy (State.reset.setI 0xFFF) (.draw 0 0 2) = some (.dataOutOfRange, 0x1000) ∧
    raisedBy (State.reset.setI 0xFFF) (.draw 0 0 1) = none ∧
    raisedBy (State.reset.setI 0xFFE) (.movBcd 0) = some (.dataOutOfRange, 0x1000) ∧
    raisedBy (State.reset.setI 0xFFD) (.movBcd 0) = none ∧
    raisedBy (State.reset.setI 0x1000) (.regDump 0) = some (.dataOutOfRange, 0x1000) ∧
    raisedBy (State.reset.setI 0xFFF) (.regLoad 0) = none ∧
    raisedBy (State.reset.setV 1 16) (.skipKey 1) = some (.keyIndexOutOfRange, 16) ∧
    raisedBy (State.reset.setV 1 15) (.skipNoKey 1) = none := by decide

/-- Witness of Obligations.RunEndsChangeNothingButStatus: the three ends of spec/70_reset_and_hazards.md R280, each with
a state beside it that is no end. -/
theorem witness_runEnds :
    runEnds (State.reset.withFetchWord 16 0x1200) = true ∧ runEnds (State.reset.withFetchWord 16 0x1202) = false ∧
    runEnds State.reset = true ∧ runEnds (State.reset.withFetchWord 16 0x00EE) = true ∧
    runEnds (State.reset.withFetchWord 16 0xF00A) = true ∧
    runEnds ((withKeys 2 2).withFetchWord 16 0xF00A) = false := by decide

/-- Witness of Obligations.PlacedInstructionRunsNext, at a PC that no fetch can use and in a Faulted core. -/
theorem witness_placed :
    (Instr.draw 1 2 15).wellFormed = true ∧
    (State.reset.setPc 0xFFFF |>.withFetchWord 16 (encode (.setI 0x123)).toNat).nextAction = .run (.setI 0x123) ∧
    (underflowed.withFetchWord 16 (encode (.draw 1 2 15)).toNat).nextAction = .run (.draw 1 2 15) := by decide

/-- Witness of Obligations.StepKeepsTheInvariant and HostOperationsKeepTheInvariant: a Running state that meets the
invariant and has a next state. -/
theorem witness_inv_running :
    Inv (State.reset.withFetchWord 16 0x2300) ∧
    (hostStep (State.reset.withFetchWord 16 0x2300)).1 = .ok := by
  exact ⟨⟨by decide, by decide, by decide, fun _ _ h => by cases h⟩, by decide⟩

/-- A Faulted state that meets the invariant: its fault is precise. -/
theorem witness_inv_faulted : Inv underflowed ∧ underflowed.status = .faulted .stackUnderflow 0x200 := by
  refine ⟨⟨by decide, by decide, by decide, fun cause info h => ?_⟩, by decide⟩
  have h' : Status.faulted .stackUnderflow 0x200 = .faulted cause info := h
  cases h'
  decide

/-- Witness of Obligations.MemoryFormIsCanonical: two ways to the same list, and writing what an unlisted address reads
as takes the entry off. -/
theorem witness_memory_form :
    (Memory.writeBytes [] 0x000 [0x01, 0x90]).wf ∧
    (Memory.write [] 0x300 7).write 0x200 5 = (Memory.write [] 0x200 5).write 0x300 7 ∧
    Memory.writeBytes [] 0x000 [0x01, 0x90] = [(0, 0x01)] ∧ (Memory.write [] 0x000 0x01).write 0x000 0xF0 = [] := by
  decide

/-- Witness of Obligations.InstructionsWriteOnlyWhatTheirRulesList and of the statements on DT, ST and the keypad: a
next state with the same status, from an instruction that names neither timer nor the keypad. -/
theorem witness_frames :
    nextOf (exec (.add 1 2) (withV 1 2 3 4)) = some ((withV 1 2 7 4).advance) ∧
    ((withV 1 2 7 4).advance).status = (withV 1 2 3 4).status ∧
    (∀ x, Instr.add 1 2 ≠ .setSound x) ∧ (∀ x, Instr.add 1 2 ≠ .setDelay x) ∧ (∀ x, Instr.add 1 2 ≠ .getDelay x) ∧
    (∀ x, Instr.add 1 2 ≠ .skipKey x ∧ Instr.add 1 2 ≠ .skipNoKey x ∧ Instr.add 1 2 ≠ .getKey x) := by decide

/-- Vectors V6.1 and V6.2. -/
theorem test_tick :
    (State.reset.setDelay 3).tick = State.reset.setDelay 2 ∧ (State.reset.setSound 1).tick = State.reset := by decide

/-- Loading a ROM (70_reset_and_hazards.md R270): the bytes stand at 0x200, the font at 0, the rest is 0. -/
theorem test_loadRom :
    let r := (withMem 7 0x204 [9]).loadRom defaultParams [0xA1, 0x23]
    r.1 = .loaded ∧ r.2 = State.reset.setMem [(0x200, 0xA1), (0x201, 0x23)] := by decide +kernel

/-- Vectors V6.6 and V6.7, at a ROM_MAX of two bytes. Witness of both clauses of Obligations.LoadRomResetsTheCore. -/
theorem test_loadRom_rejected :
    let p : Params := ⟨defaultFont, 2⟩
    State.reset.loadRom p [1, 2, 3] = (.loadRejected, State.reset) ∧
    (State.reset.loadRom p [1, 2]).1 = .loaded := by decide +kernel

/-- The two views of the framebuffer (spec/20_memory.md R78): pixel (63, 31) is the last byte's bit 0. -/
theorem test_framebuffer :
    (withMem 0 0xFFF [0x01]).framebuffer[255]? = some 0x01 ∧
    (withMem 0 0xFFF [0x01]).framebufferPixels[2047]? = some 1 ∧
    (withMem 0 0xFFF [0x01]).framebufferPixels[2046]? = some 0 := by decide +kernel

/-- The codes of spec/60_exceptions.md R234. -/
theorem test_codes :
    StepReply.code (.decodeError 1 2) = some 0 ∧ StepReply.code (.machineFault .dataOutOfRange 0x1000) = some 4 ∧
    StepReply.code .ok = none := by decide

end Sys2Proof.Tests
end

section
/-! Who writes the keypad and who reads it (spec/10_state.md R41, spec/60_exceptions.md R252). One case split over the
instructions shows that replacing the keypad commutes with every instruction that is no key instruction; that such an
instruction writes no key follows, by putting the keypad that stands there in its own place. -/

namespace Sys2Proof.Machine

/-- Applies f to the next state of a result; a fault and a refusal stay. -/
def mapNext (f : State → State) : Result → Result
  | .next t => .next (f t)
  | .fault r => .fault r
  | .refused r => .refused r

@[simp] theorem mapNext_next (f : State → State) (t : State) : mapNext f (.next t) = .next (f t) := rfl

/-! ### What set_keypad changes -/

section
variable (s : State) (keys : Vector Bool 16)

@[simp] theorem State.setKeypad_keypad : (s.setKeypad keys).keypad = keys := rfl
@[simp] theorem State.setKeypad_pc : (s.setKeypad keys).pc = s.pc := rfl
@[simp] theorem State.setKeypad_sp : (s.setKeypad keys).sp = s.sp := rfl
@[simp] theorem State.getV_setKeypad (x : Reg) : (s.setKeypad keys).getV x = s.getV x := rfl
@[simp] theorem State.setKeypad_self : s.setKeypad s.keypad = s := rfl

theorem State.keyDown_eq {k : Nat} (h : k < 16) : s.keyDown k = s.keypad[k] := dif_pos h

/-- WAITKEY sees a key exactly when one of the 16 entries is set. -/
theorem State.firstPressed_ne_none : s.firstPressed ≠ none ↔ ∃ k, ∃ h : k < 16, s.keypad[k] = true := by
  rw [Ne, State.firstPressed_eq_none]
  push Not
  refine exists_congr fun k => ⟨fun ⟨hk, hd⟩ => ⟨hk, ?_⟩, fun ⟨hk, hd⟩ => ⟨hk, ?_⟩⟩
  · simpa [s.keyDown_eq hk] using hd
  · simpa [s.keyDown_eq hk] using hd

end

/-! ### The three instructions that read the keypad -/

section
variable (s : State) (x : Reg)

/-- SKIPKEY.Y skips on the key that V[x] names, or raises KeyIndexOutOfRange (spec/44_keypad_timers.md R210). -/
theorem exec_skipKey_cases :
    ((s.getV x).toNat ≤ 0xF ∧ exec (.skipKey x) s = .next (s.skipIf (s.keyDown (s.getV x).toNat))) ∨
    (0xF < (s.getV x).toNat ∧
      exec (.skipKey x) s = .next (s.enterFault .keyIndexOutOfRange (zextByte (s.getV x)))) := by
  refine (s.keyOperand_cases x).imp (fun ⟨hx, hk⟩ => ⟨hx, ?_⟩) (fun ⟨hx, hk⟩ => ⟨hx, ?_⟩)
  all_goals simp [exec, execSkipKey, hk, raise]

/-- SKIPKEY.N skips on the key that V[x] names being up, or raises KeyIndexOutOfRange
(spec/44_keypad_timers.md R211). -/
theorem exec_skipNoKey_cases :
    ((s.getV x).toNat ≤ 0xF ∧ exec (.skipNoKey x) s = .next (s.skipIf (!s.keyDown (s.getV x).toNat))) ∨
    (0xF < (s.getV x).toNat ∧
      exec (.skipNoKey x) s = .next (s.enterFault .keyIndexOutOfRange (zextByte (s.getV x)))) := by
  refine (s.keyOperand_cases x).imp (fun ⟨hx, hk⟩ => ⟨hx, ?_⟩) (fun ⟨hx, hk⟩ => ⟨hx, ?_⟩)
  all_goals simp [exec, execSkipNoKey, hk, raise]

/-- WAITKEY takes the first pressed key, or leaves the state as it is (spec/44_keypad_timers.md R213). -/
theorem exec_getKey_cases :
    (∃ k, s.firstPressed = some k ∧ exec (.getKey x) s = .next (s.setV x (BitVec.ofNat 8 k)).advance) ∨
    (s.firstPressed = none ∧ exec (.getKey x) s = .next s) := by
  cases hp : s.firstPressed with
  | some k => exact .inl ⟨k, rfl, by simp [exec, execGetKey, hp]⟩
  | none => exact .inr ⟨rfl, by simp [exec, execGetKey, hp]⟩

end

theorem exec_skipKey_pc {s : State} {x : Reg} (h : (s.getV x).toNat < 16) :
    ∃ t, exec (.skipKey x) s = .next t ∧
      t.pc = if s.keypad[(s.getV x).toNat] = true then s.pc + 4 else s.pc + 2 := by
  obtain ⟨-, he⟩ | ⟨hx, -⟩ := exec_skipKey_cases s x
  · exact ⟨_, he, by simp [s.keyDown_eq h]⟩
  · omega

theorem exec_skipNoKey_pc {s : State} {x : Reg} (h : (s.getV x).toNat < 16) :
    ∃ t, exec (.skipNoKey x) s = .next t ∧
      t.pc = if s.keypad[(s.getV x).toNat] = true then s.pc + 2 else s.pc + 4 := by
  obtain ⟨-, he⟩ | ⟨hx, -⟩ := exec_skipNoKey_cases s x
  · refine ⟨_, he, ?_⟩
    cases hk : s.keypad[(s.getV x).toNat] <;> simp [s.keyDown_eq h, hk]
  · omega

theorem exec_getKey_pc (s : State) (x : Reg) : ∃ t, exec (.getKey x) s = .next t ∧
    t.pc = if ∃ k, ∃ h : k < 16, s.keypad[k] = true then s.pc + 2 else s.pc := by
  simp only [← s.firstPressed_ne_none]
  obtain ⟨k, hp, he⟩ | ⟨hp, he⟩ := exec_getKey_cases s x
  · exact ⟨_, he, by simp [hp]⟩
  · exact ⟨_, he, by simp [hp]⟩

/-! ### Every other instruction -/

theorem checkedAccess_setKeypad {s done done' : State} {keys : Vector Bool 16}
    (h : done' = done.setKeypad keys) (base n : Nat) :
    checkedAccess (s.setKeypad keys) base n done' =
      mapNext (·.setKeypad keys) (checkedAccess s base n done) := by
  subst h
  unfold checkedAccess
  cases firstOutOfRange base n <;> rfl

section
variable (s : State) (keys : Vector Bool 16)

theorem State.push_setKeypad (w : Word) :
    (s.setKeypad keys).push w = (s.push w).map (·.setKeypad keys) := by
  obtain ⟨h, hp⟩ | ⟨h, hp⟩ := s.push_cases w
  · rw [hp]; exact dif_pos h
  · rw [hp]; exact dif_neg (by simp [h])

theorem State.pop_setKeypad :
    (s.setKeypad keys).pop = s.pop.map fun p => (p.1, p.2.setKeypad keys) := by
  obtain ⟨h, hp⟩ | ⟨h, hp⟩ := s.pop_cases
  · rw [hp]; exact dif_pos h
  · rw [hp]; exact dif_neg (by simp [h])

/-- Replacing the keypad before an instruction that does not read it is replacing it after: the arms that branch do so
on SP or on an address, and every other arm is one update of the state. -/
theorem exec_setKeypad {i : Instr} (hi : ∀ x, i ≠ .skipKey x ∧ i ≠ .skipNoKey x ∧ i ≠ .getKey x) :
    exec i (s.setKeypad keys) = mapNext (·.setKeypad keys) (exec i s) := by
  cases i with
  | call nnn =>
    simp only [exec, execCall, State.push_setKeypad, State.setKeypad_pc]
    cases s.push (s.pc + 2) <;> rfl
  | rts =>
    simp only [exec, execRts, State.pop_setKeypad]
    cases s.pop <;> rfl
  | draw x y n | movBcd x | regDump x | regLoad x => exact checkedAccess_setKeypad (by rfl) _ _
  | skipKey x | skipNoKey x | getKey x => exact absurd (hi x) (by simp)
  | _ => rfl

end

/-- No instruction writes the keypad (spec/10_state.md R41). For one that does not read it either, the next state is
the same after set_keypad has put the present keys in their own place, so it holds those keys. -/
theorem exec_keepsKeypad {i : Instr} {s t : State} (h : exec i s = .next t) : t.keypad = s.keypad := by
  by_cases hi : ∀ x, i ≠ .skipKey x ∧ i ≠ .skipNoKey x ∧ i ≠ .getKey x
  · have ht : t = t.setKeypad s.keypad := by
      simpa [h] using exec_setKeypad s s.keypad hi
    rw [ht, State.setKeypad_keypad]
  · obtain ⟨x, hx⟩ := not_forall.1 hi
    obtain rfl | rfl | rfl : i = .skipKey x ∨ i = .skipNoKey x ∨ i = .getKey x := by tauto
    · obtain ⟨-, he⟩ | ⟨-, he⟩ := exec_skipKey_cases s x <;> cases h.symm.trans he <;> rfl
    · obtain ⟨-, he⟩ | ⟨-, he⟩ := exec_skipNoKey_cases s x <;> cases h.symm.trans he <;> rfl
    · obtain ⟨k, -, he⟩ | ⟨-, he⟩ := exec_getKey_cases s x <;> cases h.symm.trans he <;> rfl

/-! ### load_rom -/

theorem State.loadRom_accepted {p : Params} {rom : List Byte} (s : State) (h : rom.length ≤ p.romMax.val) :
    s.loadRom p rom =
      (.loaded, { State.reset with mem := loadedMemory p.font rom, draws := s.draws }) :=
  if_neg (Nat.not_lt.2 h)

/-- Settles O20: set_keypad commutes with every instruction but the three readers, and each reader's PC is that of its
case. -/
theorem keypadBelongsToTheHost : Obligations.KeypadBelongsToTheHost := by
  refine ⟨fun s keys => ⟨rfl, fun k h => (s.setKeypad keys).keyDown_eq h⟩, fun i s t h => exec_keepsKeypad h,
    fun i s t keys hi h => ?_, fun x s keys h => ?_, fun x s keys => ?_, fun p rom s k h => ?_⟩
  · rw [exec_setKeypad s keys hi, h, mapNext_next]
  · exact ⟨exec_skipKey_pc (s := s.setKeypad keys) h, exec_skipNoKey_pc (s := s.setKeypad keys) h⟩
  · exact exec_getKey_pc (s.setKeypad keys) x
  · simp [s.loadRom_accepted h, State.keyDown, State.reset]

end Sys2Proof.Machine
end

section
/-! The host's read-only view of the framebuffer (spec/20_memory.md R78): its packed bytes, its pixels, and that no
host operation but load_rom and step writes memory. -/

namespace Sys2Proof.Machine

/-! ### Packed -/

@[simp] theorem Memory.length_readBytes (m : Memory) (base n : Nat) : (m.readBytes base n).length = n := by
  simp [Memory.readBytes]

theorem Memory.getElem?_readBytes (m : Memory) (base : Nat) {n k : Nat} (h : k < n) :
    (m.readBytes base n)[k]? = some (m.read (base + k)) := by
  simp [Memory.readBytes, List.getElem?_range h]

/-! ### Expanded -/

/-- A pixel as a byte: 1 exactly where the masked byte of its address is not 0 (spec/20_memory.md R62). -/
theorem flagByte_pixel (m : Memory) (x y : Nat) :
    flagByte (m.pixel x y) = if m.read (pixelAddress x y) &&& pixelMask x y ≠ 0 then 1 else 0 := by
  simp only [flagByte, Memory.pixel, bne_iff_ne]

@[simp] theorem State.length_framebufferPixels (s : State) : s.framebufferPixels.length = 2048 := by
  simp [State.framebufferPixels]

/-- The expanded view lists the pixels row after row, 64 a row: entry y * 64 + x is pixel (x, y). -/
theorem State.getElem?_framebufferPixels (s : State) {x y : Nat} (hx : x < 64) (hy : y < 32) :
    s.framebufferPixels[y * 64 + x]? = some (flagByte (s.mem.pixel x y)) := by
  have hcolumn : (y * 64 + x) % 64 = x := by omega
  have hrow : (y * 64 + x) / 64 = y := by omega
  have hin : y * 64 + x < 2048 := by omega
  simp only [State.framebufferPixels, List.getElem?_map, List.getElem?_range hin, Option.map_some, hcolumn, hrow]

/-! ### Read-only -/

@[simp] theorem State.tick_mem (s : State) : s.tick.mem = s.mem := rfl
@[simp] theorem State.setKeypad_mem (s : State) (keys : Vector Bool 16) : (s.setKeypad keys).mem = s.mem := rfl

/-- Only load_rom and step can write memory: tick and set_keypad write other fields, and the accessors none. -/
theorem hostCall_keepsMem {op : HostOp} (hload : ∀ rom, op ≠ .loadRom rom) (hstep : op ≠ .step) (p : Params)
    (s : State) : (hostCall p op s).2.mem = s.mem := by
  cases op with
  | loadRom rom => exact absurd rfl (hload rom)
  | step => exact absurd rfl hstep
  | tick => exact s.tick_mem
  | setKeypad keys => exact s.setKeypad_mem keys
  | framebuffer | inspect => rfl

/-- Settles O53: both views are maps over a range of addresses or pixels, and the accessor answers with its own
state. -/
theorem framebufferIsAReadOnlyView : Obligations.FramebufferIsAReadOnlyView := by
  refine fun p s => ⟨s.mem.length_readBytes 0xF00 256, fun k hk => s.mem.getElem?_readBytes 0xF00 hk,
    s.length_framebufferPixels, fun x y hx hy => ?_, rfl, fun op hload hstep => hostCall_keepsMem hload hstep p s⟩
  rw [s.getElem?_framebufferPixels hx hy, flagByte_pixel, pixelAddress, pixelMask]

end Sys2Proof.Machine
end

section
/-! The decoder on the words that the document itself gives (spec/30_encoding.md R97). -/

namespace Sys2Proof.Machine

/-- Settles O4, by running the decoder on the eight words. The five legal ones take the group's literal (0xA, 0x6) or
a selector of group 0xF; the three illegal ones have no such selector (0x00 in group 0xE, 0xFF in group 0xF) or a low
nibble other than 0 in group 0x5. -/
theorem documentWordsDecode : Obligations.DocumentWordsDecode := by
  unfold Obligations.DocumentWordsDecode
  decide

end Sys2Proof.Machine
end

section
/-! SUPPORT. The decoder on the words that the encoder builds, in the groups of the decoder (spec/30_encoding.md R95,
R96): the high nibble selects the group, and in the groups 0x5, 0x8, 0x9, 0xE and 0xF a selector the instruction. -/

namespace Sys2Proof

/-- The decoder reads back every word that the encoder writes. The fields of the three word shapes say which arm of the
decoder runs and which operands it finds. -/
theorem decodeWord_encode {i : Instr} (hi : i.wellFormed = true) : decodeWord (encode i) = some i := by
  cases i with
  | cls | rts => decide
  | jump nnn | call nnn | setI nnn | jumpPlusV0 nnn =>
    simp [encode, decodeWord, bits_wordNNN]
  | skipEqImm x nn | skipNeImm x nn | movImm x nn | addImm x nn | randAnd x nn =>
    simp [encode, decodeWord, bits_wordXNN]
  | skipEqReg x y | skipNeReg x y =>
    simp [encode, decodeWord, bits_wordXYN]
  | mov x y | or x y | and x y | xor x y | add x y | sub x y | shr x y | subb x y | shl x y =>
    simp [encode, decodeWord, bits_wordXYN, decodeGroup8]
  | draw x y n =>
    have hn : n < 16 := Nat.lt_succ_of_le (of_decide_eq_true hi)
    simp [encode, decodeWord, bits_wordXYN, hn]
  | skipKey x | skipNoKey x =>
    simp [encode, decodeWord, bits_wordXNN, decodeGroupE]
  | getDelay x | getKey x | setDelay x | setSound x | addI x | spriteChar x | movBcd x | regDump x | regLoad x =>
    simp [encode, decodeWord, bits_wordXNN, decodeGroupF]

end Sys2Proof

namespace Sys2Proof.Machine

theorem spells_encode {i : Instr} (hi : i.wellFormed = true) : Spells (encode i) i := by
  rw [Spells, decode_bytes, decodeWord_encode hi]

end Sys2Proof.Machine
end

section
/-! JUMP and the skips: they write PC alone (spec/41_control_flow.md R142, R145 to R147), and no PC is checked before the
next fetch (spec/20_memory.md R66). -/

namespace Sys2Proof.Machine

/-! ### Writing PC -/

section
variable (s : State)

theorem frame_setPc (w : Word) : Frame {} s (s.setPc w) := by
  constructor <;> intros <;> rfl

@[simp] theorem State.setPc_self : s.setPc s.pc = s := rfl

end

@[simp] theorem toNat_zextAddr (nnn : BitVec 12) : (zextAddr nnn).toNat = nnn.toNat := by
  have := nnn.isLt
  simp [zextAddr]; omega

/-! ### A PC that no fetch can use -/

theorem State.fetchBytes_eq_none {s : State} : s.fetchBytes = none ↔ 0xFFE < s.pc.toNat := by
  simp [State.fetchBytes]

/-- A running core whose PC is above 0xFFE raises FetchOutOfRange with that PC (spec/60_exceptions.md R231). -/
theorem step_of_unfetchable {s : State} (hrun : s.status = .running) (hpc : 0xFFE < s.pc.toNat) :
    step s = raise s .fetchOutOfRange s.pc := by
  have hact : s.nextAction = .fetchFault := by
    rw [State.nextAction, hrun, State.fetchBytes_eq_none.2 hpc]
  rw [step, hact]

/-! ### JUMP -/

theorem exec_jump (nnn : BitVec 12) (s : State) : exec (.jump nnn) s = .next (s.setPc (zextAddr nnn)) := rfl

/-- Settles O22: a JUMP is one write of PC. To its own address the write changes nothing; 0xFFF is an address that no
fetch can use. -/
theorem jumpSetsPc : Obligations.JumpSetsPc := by
  refine fun nnn s => ⟨spells_encode (i := .jump nnn) rfl, _, exec_jump nnn s, toNat_zextAddr nnn,
    frame_setPc s _, fun hself => ?_, fun hmax hrun => ?_⟩
  · have hpc : zextAddr nnn = s.pc := BitVec.eq_of_toNat_eq ((toNat_zextAddr nnn).trans hself)
    rw [hpc, s.setPc_self]
  · subst hmax
    exact step_of_unfetchable (s := s.setPc (zextAddr 0xFFF)) hrun (by simp)

/-! ### The skips -/

/-- An instruction that is one conditional skip moves PC by 4 where its condition P holds, by 2 where Q excludes it, and
changes nothing else. -/
theorem exec_skip {i : Instr} {s : State} {c : Bool} {P Q : Prop} (he : exec i s = .next (s.skipIf c))
    (hP : P → c = true) (hQ : Q → c = false) :
    ∃ t, exec i s = .next t ∧ Frame {} s t ∧ (P → t.pc = s.pc + 4) ∧ (Q → t.pc = s.pc + 2) :=
  ⟨_, he, frame_setPc s _, fun h => by simp [hP h], fun h => by simp [hQ h]⟩

/-- Settles O27: each of the three is one conditional skip, on the equality or the inequality of its operands. -/
theorem skipsMovePcByFourOrTwo : Obligations.SkipsMovePcByFourOrTwo := by
  refine fun x y nn s => ⟨⟨spells_encode (i := .skipEqImm x nn) rfl, ?_⟩,
    ⟨spells_encode (i := .skipNeImm x nn) rfl, ?_⟩, ⟨spells_encode (i := .skipEqReg x y) rfl, ?_⟩⟩
  · exact exec_skip (c := s.getV x == nn) rfl beq_iff_eq.2 beq_eq_false_iff_ne.2
  · exact exec_skip (c := s.getV x != nn) rfl bne_iff_ne.2 bne_eq_false_iff_eq.2
  · exact exec_skip (c := s.getV x == s.getV y) rfl beq_iff_eq.2 beq_eq_false_iff_ne.2

end Sys2Proof.Machine
end

section
/-! The instructions that write one register and move to the next instruction (spec/42_alu.md R161, R163). -/

namespace Sys2Proof.Machine

/-- Writing one register and moving PC on leaves everything else as it was. -/
theorem frame_setV_advance (s : State) (x : Reg) (b : Byte) : Frame (onlyReg x) s (s.setV x b).advance := by
  constructor
  case regs =>
    intro r hr
    have hne : r ≠ x := beq_eq_false_iff_ne.1 hr
    simp [hne]
  all_goals intros; rfl

/-- An instruction that is one register write leaves that value in its destination, whichever register that is, moves
PC by 2 and changes nothing else. -/
theorem exec_writesReg {i : Instr} {s : State} {x : Reg} {b : Byte}
    (he : exec i s = .next (s.setV x b).advance) :
    ∃ t, exec i s = .next t ∧ t.getV x = b ∧ t.pc = s.pc + 2 ∧ Frame (onlyReg x) s t :=
  ⟨_, he, by simp, rfl, frame_setV_advance s x b⟩

/-- Settles O30: each of the two is one register write, of the literal or of Vy. -/
theorem movesWriteTheirDestination : Obligations.MovesWriteTheirDestination := by
  refine fun x y nn s => ⟨⟨spells_encode (i := .movImm x nn) rfl, ?_⟩, ⟨spells_encode (i := .mov x y) rfl, ?_⟩⟩
  · exact exec_writesReg (b := nn) rfl
  · exact exec_writesReg (b := s.getV y) rfl

end Sys2Proof.Machine
end

section
/-! The instructions that write I and move to the next instruction (spec/43_index_memory.md R190 to R192). -/

namespace Sys2Proof.Machine

/-- Writing I and moving PC on leaves everything else as it was. -/
theorem frame_setI_advance (s : State) (w : Word) : Frame { index := true } s (s.setI w).advance := by
  constructor
  case index => intro h; cases h
  all_goals intros; rfl

/-- An instruction that is one write of I leaves that value there, moves PC by 2 and changes nothing else. -/
theorem exec_writesIndex {i : Instr} {s : State} {w : Word} (he : exec i s = .next (s.setI w).advance) :
    ∃ t, exec i s = .next t ∧ t.i = w ∧ t.pc = s.pc + 2 ∧ Frame { index := true } s t :=
  ⟨_, he, rfl, rfl, frame_setI_advance s w⟩

/-- Settles O37: MVI is one write of I, of the zero-extended literal. -/
theorem setIndexLoadsTheAddress : Obligations.SetIndexLoadsTheAddress := by
  intro nnn s
  obtain ⟨t, he, hi, hpc, hframe⟩ := exec_writesIndex (i := .setI nnn) (s := s) rfl
  exact ⟨spells_encode (i := .setI nnn) rfl, t, he, by rw [hi, toNat_zextAddr], hpc, hframe⟩

end Sys2Proof.Machine
end

section
/-! The stores of a list of bytes from I on, range-checked before any write (spec/20_memory.md R64, R65), and MOVBCD
among them (spec/43_index_memory.md R193). -/

namespace Sys2Proof.Machine

/-- Inside a written range each address reads the byte of its offset. -/
theorem Memory.read_writeBytes_inside (m : Memory) (base : Nat) {bs : List Byte} {k : Nat} (h : k < bs.length) :
    (m.writeBytes base bs).read (base + k) = bs[k] := by
  simp [Memory.read_writeBytes, h]

/-- Storing bytes and moving PC on leaves everything else as it was. -/
theorem frame_writeBytes_advance (s : State) (base : Nat) (bs : List Byte) :
    Frame { memFrom := base, memLen := bs.length } s (s.setMem (s.mem.writeBytes base bs)).advance := by
  constructor
  case mem => exact fun a ha => Memory.read_writeBytes_outside s.mem base a bs ha
  all_goals intros; rfl

section
variable {i : Instr} {s : State} {bs : List Byte} {n : Nat} (hlen : bs.length = n)
  (he : exec i s = checkedAccess s s.base n (s.setMem (s.mem.writeBytes s.base bs)).advance)
include hlen he

/-- An instruction that is one store, with every address in range, stores each byte at its offset, moves PC by 2 and
changes nothing else. -/
theorem exec_storesBytes (hin : s.base + n ≤ 0x1000) :
    ∃ t, exec i s = .next t ∧ (∀ k, (h : k < bs.length) → t.mem.read (s.base + k) = bs[k]) ∧
      t.pc = s.pc + 2 ∧ Frame { memFrom := s.base, memLen := n } s t := by
  subst hlen
  exact ⟨_, he.trans (checkedAccess_inRange s _ (.inr hin)), fun _ h => s.mem.read_writeBytes_inside s.base h, rfl,
    frame_writeBytes_advance s s.base bs⟩

end

@[simp] theorem length_bcdDigits (b : Byte) : (bcdDigits b).length = 3 := rfl

/-- The hundreds of a byte are at most 2 and the other two digits at most 9, so each fits its byte. -/
theorem toNat_bcdDigits (b : Byte) :
    (bcdDigits b)[0].toNat = b.toNat / 100 ∧ (bcdDigits b)[1].toNat = b.toNat / 10 % 10 ∧
      (bcdDigits b)[2].toNat = b.toNat % 10 := by
  have hb := b.isLt
  simp only [bcdDigits, List.getElem_cons_zero, List.getElem_cons_succ, BitVec.toNat_ofNat]
  omega

theorem exec_movBcd (x : Reg) (s : State) : exec (.movBcd x) s =
    checkedAccess s s.base 3 (s.setMem (s.mem.writeBytes s.base (bcdDigits (s.getV x)))).advance := rfl

/-- Settles O40: MOVBCD is one store of the three digits of V[x] at I, and its last address is I + 2. -/
theorem bcdStoresThreeDigits : Obligations.BcdStoresThreeDigits := by
  refine fun x s => ⟨spells_encode (i := .movBcd x) rfl, fun hin => ?_, fun hout => ?_⟩
  · have hfits : s.base + 3 ≤ 0x1000 := Nat.succ_le_succ hin
    obtain ⟨t, he, hread, hpc, hframe⟩ := exec_storesBytes (length_bcdDigits _) (exec_movBcd x s) hfits
    obtain ⟨hhundreds, htens, hones⟩ := toNat_bcdDigits (s.getV x)
    exact ⟨t, he, (congrArg BitVec.toNat (hread 0 (by simp))).trans hhundreds,
      (congrArg BitVec.toNat (hread 1 (by simp))).trans htens,
      (congrArg BitVec.toNat (hread 2 (by simp))).trans hones, hpc, hframe⟩
  · exact (exec_movBcd x s).trans (checkedAccess_outOfRange s _ (by decide) (Nat.succ_lt_succ hout))

end Sys2Proof.Machine
end

section
/-! The moves to and from the timers (spec/44_keypad_timers.md R212, R214, R215). -/

namespace Sys2Proof.Machine

/-- Writing DT and moving PC on leaves everything else as it was. -/
theorem frame_setDelay_advance (s : State) (b : Byte) : Frame { dt := true } s (s.setDelay b).advance := by
  constructor
  case dt => intro h; cases h
  all_goals intros; rfl

/-- Writing ST and moving PC on leaves everything else as it was. -/
theorem frame_setSound_advance (s : State) (b : Byte) : Frame { st := true } s (s.setSound b).advance := by
  constructor
  case st => intro h; cases h
  all_goals intros; rfl

/-- Settles O49: MOV Vx,DELAY is one register write, of DT; the other two are one write of their timer, of Vx. -/
theorem timerMovesCopyTheirByte : Obligations.TimerMovesCopyTheirByte := by
  refine fun x s => ⟨⟨spells_encode (i := .getDelay x) rfl, ?_⟩, ⟨spells_encode (i := .setDelay x) rfl, ?_⟩,
    ⟨spells_encode (i := .setSound x) rfl, ?_⟩⟩
  · exact exec_writesReg (b := s.dt) rfl
  · exact ⟨_, rfl, rfl, rfl, frame_setDelay_advance s (s.getV x)⟩
  · exact ⟨_, rfl, rfl, rfl, frame_setSound_advance s (s.getV x)⟩

end Sys2Proof.Machine
end

section
/-! What the host's step returns (spec/60_exceptions.md R231), in the order of R237: the recorded fault, the fetch
fault, the illegal word, and the instruction, which completes or raises. -/

namespace Sys2Proof.Machine

/-! ### What an instruction can answer -/

/-- The two outcomes of an instruction run in s (spec/60_exceptions.md R231): a next state whose status is that of s, or
a MachineFault raised from s itself, with every other write discarded (R236). -/
def CompletesOrRaises (s : State) (r : Result) : Prop :=
  (∃ t, r = .next t ∧ t.status = s.status) ∨ ∃ cause info, r = raise s cause info

theorem checkedAccess_completesOrRaises {s done : State} (h : done.status = s.status) (base n : Nat) :
    CompletesOrRaises s (checkedAccess s base n done) :=
  (checkedAccess_cases s done base n).imp (fun ⟨_, he⟩ => ⟨done, he, h⟩) (fun ⟨_, he⟩ => ⟨_, _, he⟩)

theorem execCall_completesOrRaises (nnn : BitVec 12) (s : State) : CompletesOrRaises s (execCall nnn s) := by
  rw [execCall]
  obtain ⟨_, hp⟩ | ⟨_, hp⟩ := s.push_cases (s.pc + 2) <;> rw [hp]
  · exact .inl ⟨_, rfl, rfl⟩
  · exact .inr ⟨_, _, rfl⟩

theorem execRts_completesOrRaises (s : State) : CompletesOrRaises s (execRts s) := by
  rw [execRts]
  obtain ⟨_, hp⟩ | ⟨_, hp⟩ := s.pop_cases <;> rw [hp]
  · exact .inl ⟨_, rfl, rfl⟩
  · exact .inr ⟨_, _, rfl⟩

/-- No instruction does anything else. The arms that can raise branch on SP, on the range of an access or on a key
number; every other arm is an update that does not write the status. -/
theorem exec_completesOrRaises (i : Instr) (s : State) : CompletesOrRaises s (exec i s) := by
  cases i with
  | call nnn => exact execCall_completesOrRaises nnn s
  | rts => exact execRts_completesOrRaises s
  | draw x y n | movBcd x | regDump x | regLoad x => exact checkedAccess_completesOrRaises (by rfl) _ _
  | skipKey x =>
    exact (exec_skipKey_cases s x).imp (fun ⟨_, he⟩ => ⟨_, he, rfl⟩) (fun ⟨_, he⟩ => ⟨_, _, he⟩)
  | skipNoKey x =>
    exact (exec_skipNoKey_cases s x).imp (fun ⟨_, he⟩ => ⟨_, he, rfl⟩) (fun ⟨_, he⟩ => ⟨_, _, he⟩)
  | getKey x =>
    obtain ⟨_, _, he⟩ | ⟨_, he⟩ := exec_getKey_cases s x <;> exact .inl ⟨_, he, rfl⟩
  | _ => exact .inl ⟨_, rfl, rfl⟩

/-! ### The step in each case of its front -/

/-- A DecodeError carries the two bytes that were decoded (spec/60_exceptions.md R232). -/
theorem decode_eq_decodeError {byte1 byte2 b1 b2 : Byte} (h : decode byte1 byte2 = .decodeError b1 b2) :
    b1 = byte1 ∧ b2 = byte2 := by
  unfold decode at h
  split at h
  · cases h
  · cases h; exact ⟨rfl, rfl⟩

section
variable {s : State}

theorem State.fetchBytes_eq_some (hpc : s.pc.toNat ≤ 0xFFE) :
    s.fetchBytes = some (s.mem.read s.pc.toNat, s.mem.read (s.pc.toNat + 1)) := if_pos hpc

/-- A faulted core answers the recorded fault again (spec/60_exceptions.md R240). -/
theorem step_of_faulted {cause : FaultCause} {info : Word} (h : s.status = .faulted cause info) :
    step s = .fault (.machineFault cause info) := by
  rw [step, State.nextAction, h]

theorem step_of_illegal {b1 b2 : Byte} (hrun : s.status = .running) (hpc : s.pc.toNat ≤ 0xFFE)
    (hdec : decode (s.mem.read s.pc.toNat) (s.mem.read (s.pc.toNat + 1)) = .decodeError b1 b2) :
    step s = .fault (.decodeError b1 b2) := by
  simp only [step, State.nextAction, hrun, State.fetchBytes_eq_some hpc, hdec]

theorem step_of_instr {i : Instr} (hrun : s.status = .running) (hpc : s.pc.toNat ≤ 0xFFE)
    (hdec : decode (s.mem.read s.pc.toNat) (s.mem.read (s.pc.toNat + 1)) = .instr i) : step s = exec i s := by
  simp only [step, State.nextAction, hrun, State.fetchBytes_eq_some hpc, hdec]

/-! ### The host's reply to each answer of the step -/

theorem hostStep_of_next {t : State} (h : step s = .next t) : hostStep s = (replyOf t.status, t) := by
  rw [hostStep, h]

theorem hostStep_of_decodeError {b1 b2 : Byte} (h : step s = .fault (.decodeError b1 b2)) :
    hostStep s = (.decodeError b1 b2, s) := by
  rw [hostStep, h]

theorem hostStep_of_machineFault {cause : FaultCause} {info : Word} (h : step s = .fault (.machineFault cause info)) :
    hostStep s = (.machineFault cause info, s) := by
  rw [hostStep, h]

end

/-- Settles O7: the front of the step decides between its four cases, and in the last one the instruction completes,
which leaves the core Running, or raises. -/
theorem hostStepFollowsItsPseudocode : Obligations.HostStepFollowsItsPseudocode := by
  refine fun s => ⟨fun cause info h => hostStep_of_machineFault (step_of_faulted h),
    fun hrun hpc => hostStep_of_next (step_of_unfetchable hrun hpc), fun hrun hpc => ⟨fun b1 b2 hdec => ?_,
    fun i hdec => ?_⟩⟩
  · obtain ⟨rfl, rfl⟩ := decode_eq_decodeError hdec
    exact hostStep_of_decodeError (step_of_illegal hrun hpc hdec)
  · have hstep := step_of_instr hrun hpc hdec
    obtain ⟨t, he, hstatus⟩ | ⟨cause, info, he⟩ := exec_completesOrRaises i s
    · have hok : t.status = .running := hstatus.trans hrun
      have hreply := hostStep_of_next (hstep.trans he)
      rw [hok] at hreply
      exact ⟨t, he, .inl ⟨hok, hreply⟩⟩
    · exact ⟨_, he, .inr ⟨cause, info, rfl, hostStep_of_next (hstep.trans he)⟩⟩

end Sys2Proof.Machine
end

section
/-! The decoder and the encoder are inverse to each other (spec/30_encoding.md R95, R96): a word is built again from its
fields, and in each group the selector names the instruction whose pattern has it. -/

namespace Sys2Proof

/-! ### A word from its fields -/

section
variable (w : Word)

theorem wordNNN_bits : wordNNN (bits w 15 12) (BitVec.ofNat 12 (bits w 11 0)) = w := by
  apply BitVec.eq_of_toNat_eq
  have := w.isLt
  simp [wordNNN, bits]; omega

theorem wordXNN_bits :
    wordXNN (bits w 15 12) (regOf (bits w 11 8)) (BitVec.ofNat 8 (bits w 7 0)) = w := by
  apply BitVec.eq_of_toNat_eq
  have := w.isLt
  simp [wordXNN, regOf, bits]; omega

theorem wordXYN_bits :
    wordXYN (bits w 15 12) (regOf (bits w 11 8)) (regOf (bits w 7 4)) (bits w 3 0) = w := by
  apply BitVec.eq_of_toNat_eq
  have := w.isLt
  simp [wordXYN, regOf, bits]; omega

theorem bits_nibble_lt (lo : Nat) : bits w (lo + 3) lo < 16 := by
  simp [bits]; omega

end

/-! ### The groups that select by more than the high nibble -/

theorem encode_of_decodeGroup0 {w : Word} {i : Instr} (h : decodeGroup0 w = some i) :
    i.wellFormed = true ∧ encode i = w := by
  unfold decodeGroup0 at h
  split at h <;> cases h
  all_goals exact ⟨rfl, (BitVec.eq_of_toNat_eq (by assumption)).symm⟩

theorem encode_of_decodeGroup8 {x y : Reg} {n : Nat} {i : Instr} (h : decodeGroup8 x y n = some i) :
    i.wellFormed = true ∧ encode i = wordXYN 0x8 x y n := by
  unfold decodeGroup8 at h
  split at h <;> cases h
  all_goals exact ⟨rfl, rfl⟩

theorem encode_of_decodeGroupE {x : Reg} {nn : Nat} {i : Instr} (h : decodeGroupE x nn = some i) :
    i.wellFormed = true ∧ encode i = wordXNN 0xE x (BitVec.ofNat 8 nn) := by
  unfold decodeGroupE at h
  split at h <;> cases h
  all_goals exact ⟨rfl, rfl⟩

theorem encode_of_decodeGroupF {x : Reg} {nn : Nat} {i : Instr} (h : decodeGroupF x nn = some i) :
    i.wellFormed = true ∧ encode i = wordXNN 0xF x (BitVec.ofNat 8 nn) := by
  unfold decodeGroupF at h
  split at h <;> cases h
  all_goals exact ⟨rfl, rfl⟩

/-- The word that decodes to an instruction is the one that the encoder builds from it. -/
theorem encode_of_decodeWord {w : Word} {i : Instr} (h : decodeWord w = some i) :
    i.wellFormed = true ∧ encode i = w := by
  have hnnn := wordNNN_bits w
  have hxnn := wordXNN_bits w
  have hxyn := wordXYN_bits w
  have hn : bits w 3 0 < 16 := bits_nibble_lt w 0
  simp only [decodeWord] at h
  generalize bits w 15 12 = group at *
  split at h
  case h_1 => exact encode_of_decodeGroup0 h
  case h_6 | h_10 =>
    split at h <;> cases h
    rename_i hz
    rw [hz] at hxyn
    exact ⟨rfl, hxyn⟩
  case h_9 => exact (encode_of_decodeGroup8 h).imp_right (·.trans hxyn)
  case h_14 => cases h; exact ⟨decide_eq_true (Nat.le_of_lt_succ hn), hxyn⟩
  case h_15 => exact (encode_of_decodeGroupE h).imp_right (·.trans hxnn)
  case h_16 => exact (encode_of_decodeGroupF h).imp_right (·.trans hxnn)
  case h_17 => cases h
  case h_2 | h_3 | h_11 | h_12 => cases h; exact ⟨rfl, hnnn⟩
  case h_4 | h_5 | h_7 | h_8 | h_13 => cases h; exact ⟨rfl, hxnn⟩

end Sys2Proof
end

section
/-! The round trip, and the illegal words (spec/30_encoding.md R95, R98). -/

namespace Sys2Proof

/-! ### The words that spell nothing -/

theorem decodeGroup0_eq_none {w : Word} : decodeGroup0 w = none ↔ w ≠ 0x00E0 ∧ w ≠ 0x00EE := by
  have hword (v : Word) : w = v ↔ w.toNat = v.toNat := BitVec.toNat_inj.symm
  unfold decodeGroup0
  split <;> simp_all

theorem decodeGroup8_eq_none {x y : Reg} {n : Nat} (hn : n < 16) :
    decodeGroup8 x y n = none ↔ n ∈ [0x8, 0x9, 0xA, 0xB, 0xC, 0xD, 0xF] := by
  interval_cases n <;> simp [decodeGroup8]

theorem decodeGroupE_eq_none {x : Reg} {nn : Nat} : decodeGroupE x nn = none ↔ nn ∉ [0x9E, 0xA1] := by
  unfold decodeGroupE
  split <;> simp_all

theorem decodeGroupF_eq_none {x : Reg} {nn : Nat} :
    decodeGroupF x nn = none ↔ nn ∉ [0x07, 0x0A, 0x15, 0x18, 0x1E, 0x29, 0x33, 0x55, 0x65] := by
  unfold decodeGroupF
  split <;> simp_all

/-- The table of spec/30_encoding.md R98. -/
def IllegalWord (w : Word) : Prop :=
  (bits w 15 12 = 0x0 ∧ w ≠ 0x00E0 ∧ w ≠ 0x00EE) ∨
  (bits w 15 12 = 0x5 ∧ bits w 3 0 ≠ 0) ∨
  (bits w 15 12 = 0x8 ∧ bits w 3 0 ∈ [0x8, 0x9, 0xA, 0xB, 0xC, 0xD, 0xF]) ∨
  (bits w 15 12 = 0x9 ∧ bits w 3 0 ≠ 0) ∨
  (bits w 15 12 = 0xE ∧ bits w 7 0 ∉ [0x9E, 0xA1]) ∨
  (bits w 15 12 = 0xF ∧ bits w 7 0 ∉ [0x07, 0x0A, 0x15, 0x18, 0x1E, 0x29, 0x33, 0x55, 0x65])

/-- The decoder answers nothing exactly on the words of the table. The groups not named in it decode every word. -/
theorem decodeWord_eq_none {w : Word} : decodeWord w = none ↔ IllegalWord w := by
  have hgroup : bits w 15 12 < 16 := bits_nibble_lt w 12
  have hn : bits w 3 0 < 16 := bits_nibble_lt w 0
  simp only [decodeWord, IllegalWord]
  generalize bits w 15 12 = group at *
  split
  case h_1 => simp [decodeGroup0_eq_none]
  case h_9 => simp [decodeGroup8_eq_none hn]
  case h_15 => simp [decodeGroupE_eq_none]
  case h_16 => simp [decodeGroupF_eq_none]
  case h_17 => interval_cases group <;> contradiction
  all_goals simp

/-! ### The decoder on two bytes -/

theorem decode_eq_instr {byte1 byte2 : Byte} {i : Instr} :
    decode byte1 byte2 = .instr i ↔ decodeWord (wordOf byte1 byte2) = some i := by
  unfold decode
  cases decodeWord (wordOf byte1 byte2) <;> simp

theorem decode_of_none {byte1 byte2 : Byte} (h : decodeWord (wordOf byte1 byte2) = none) :
    decode byte1 byte2 = .decodeError byte1 byte2 := by
  rw [decode, h]

end Sys2Proof

namespace Sys2Proof.Machine

/-- Settles O1: the fields of the word that the encoder builds lead the decoder to the arm of the same instruction. -/
theorem decodeOfEncodeIsTheInstruction : Obligations.DecodeOfEncodeIsTheInstruction :=
  fun _ hi => spells_encode hi

/-- Settles O2: in each arm of the decoder the operands and the selector are the fields of the word, and a word is
determined by its fields. -/
theorem encodeOfDecodeIsTheWord : Obligations.EncodeOfDecodeIsTheWord :=
  fun _ _ _ h => encode_of_decodeWord (decode_eq_instr.1 h)

/-- Settles O3: the decoder has no instruction exactly for the words of the table. -/
theorem illegalWordsByGroup : Obligations.IllegalWordsByGroup := by
  refine fun byte1 byte2 => ⟨fun h => decode_of_none (decodeWord_eq_none.2 h), fun h => ?_⟩
  obtain ⟨i, hi⟩ := Option.ne_none_iff_exists'.1 (mt decodeWord_eq_none.1 h)
  exact ⟨i, decode_eq_instr.2 hi⟩

end Sys2Proof.Machine
end

section
/-! What an instruction does besides its result: it raises the MachineFault of the table (spec/60_exceptions.md R234),
or it completes and leaves everything but PC and what `writesOf` lists. One case split over the instructions says both. -/

namespace Sys2Proof.Machine

/-! ### The instructions of the stack -/

section
variable (s : State)

/-- The state after a CALL to w: the return address on the stack, and PC at w (spec/41_control_flow.md R141). -/
def State.called (h : s.sp.val < 16) (w : Word) : State :=
  { s with stack := s.stack.set s.sp.val (s.pc + 2), sp := ⟨s.sp.val + 1, by omega⟩, pc := w }

/-- The state after an RTS: PC at the top entry, which is no longer counted (spec/41_control_flow.md R143). -/
def State.returned (h : 0 < s.sp.val) : State :=
  { s with pc := s.stack[s.sp.val - 1]'(by omega), sp := ⟨s.sp.val - 1, by omega⟩ }

theorem exec_call_cases (nnn : BitVec 12) :
    (∃ h : s.sp.val < 16, exec (.call nnn) s = .next (s.called h (zextAddr nnn))) ∨
    (s.sp.val = 16 ∧ exec (.call nnn) s = raise s .stackOverflow s.pc) := by
  obtain ⟨h, hp⟩ | ⟨h, hp⟩ := s.push_cases (s.pc + 2)
  · exact .inl ⟨h, by rw [exec, execCall, hp]; rfl⟩
  · exact .inr ⟨h, by rw [exec, execCall, hp]⟩

theorem exec_rts_cases :
    (∃ h : 0 < s.sp.val, exec .rts s = .next (s.returned h)) ∨
    (s.sp.val = 0 ∧ exec .rts s = raise s .stackUnderflow s.pc) := by
  obtain ⟨h, hp⟩ | ⟨h, hp⟩ := s.pop_cases
  · exact .inl ⟨h, by rw [exec, execRts, hp]; rfl⟩
  · exact .inr ⟨h, by rw [exec, execRts, hp]⟩

/-! ### Frames -/

theorem Frame.refl (w : Writes) : Frame w s s := by
  constructor <;> intros <;> rfl

theorem frame_called (h : s.sp.val < 16) (w : Word) :
    Frame { stackEntry := some s.sp.val, sp := true } s (s.called h w) := by
  constructor
  case stack => exact fun k _ hne => Vector.getElem_set_ne h _ (fun e => hne (congrArg some e))
  case sp => intro h; cases h
  all_goals intros; rfl

theorem frame_returned (h : 0 < s.sp.val) : Frame { sp := true } s (s.returned h) := by
  constructor
  case sp => intro h; cases h
  all_goals intros; rfl

/-- A change of registers and PC alone leaves everything else as it was. -/
theorem frame_of_regs {s t : State} {regs : Reg → Bool} (hrest : t = { s with v := t.v, pc := t.pc })
    (hregs : ∀ r, regs r = false → t.getV r = s.getV r) : Frame { regs := regs } s t := by
  constructor
  case regs => exact hregs
  all_goals intros; rw [hrest]

theorem frame_setResultAndFlag_advance (x : Reg) (b : Byte) (f : Bool) :
    Frame (regAndFlag x) s (s.setResultAndFlag x b f).advance := by
  refine frame_of_regs rfl fun r hr => ?_
  obtain ⟨hx, hflag⟩ : r ≠ x ∧ r ≠ VF := by simpa using hr
  simp [hx, hflag]

theorem frame_flagThenResult_advance (x : Reg) (flag result : Byte) :
    Frame (regAndFlag x) s ((s.setV VF flag).setV x result).advance := by
  refine frame_of_regs rfl fun r hr => ?_
  obtain ⟨hx, hflag⟩ : r ≠ x ∧ r ≠ VF := by simpa using hr
  simp [hx, hflag]

theorem frame_loadRegsUpTo_advance (x : Reg) :
    Frame { regs := fun r => decide (r.val ≤ x.val) } s (s.loadRegsUpTo x).advance := by
  refine frame_of_regs rfl fun r hr => ?_
  have hgt : ¬ r.val ≤ x.val := of_decide_eq_false hr
  rw [State.getV_advance, State.getV_loadRegsUpTo, if_neg hgt]

theorem frame_drawByte_setV_advance (x : Reg) (b : Byte) :
    Frame { onlyReg x with draws := true } s (s.drawByte.2.setV x b).advance := by
  constructor
  case regs => exact (frame_setV_advance s.drawByte.2 x b).regs
  case draws => intro h; cases h
  all_goals intros; rfl

theorem frame_clearFramebuffer_advance :
    Frame { memFrom := 0xF00, memLen := 256 } s (s.setMem (clearFramebuffer s.mem)).advance := by
  constructor
  case mem => exact fun a ha => (read_clearFramebuffer s.mem a).trans (if_neg ha)
  all_goals intros; rfl

/-- A sprite plotted and its collision in VF: only VF and the framebuffer can change. -/
theorem frame_drawn_advance (base x y n : Nat) (flag : Byte) :
    Frame { regs := fun r => r == VF, memFrom := 0xF00, memLen := 256 } s
      ((s.setMem (drawRows base x y n s.mem).2).setV VF flag).advance := by
  constructor
  case regs => exact (frame_setV_advance (s.setMem _) VF flag).regs
  case mem => exact fun a ha => read_drawRows_outside base x y n s.mem a ha
  all_goals intros; rfl

end

/-! ### Every instruction -/

/-- In s the instruction i raises the fault that the table gives it, or it has none there, completes, and writes only
what its rules list. -/
def FollowsItsRules (i : Instr) (s : State) : Prop :=
  (∃ cause info, raisedBy s i = some (cause, info) ∧ exec i s = raise s cause info) ∨
  (raisedBy s i = none ∧ ∃ t, exec i s = .next t ∧ Frame (writesOf s i) s t)

/-- A data access of n bytes from I raises where its last address is above 0xFFF (spec/20_memory.md R65). -/
theorem followsItsRules_of_checkedAccess {i : Instr} {s done : State} {n : Nat}
    (he : exec i s = checkedAccess s s.base n done) (hframe : Frame (writesOf s i) s done)
    (hraised : raisedBy s i = if 0 < n ∧ 0x1000 < s.base + n then
      some (.dataOutOfRange, BitVec.ofNat 16 (max s.base 0x1000)) else none) : FollowsItsRules i s := by
  obtain ⟨hin, hdone⟩ | ⟨hout, hfault⟩ := checkedAccess_cases s done s.base n
  · exact .inr ⟨hraised.trans (if_neg (by omega)), done, he.trans hdone, hframe⟩
  · exact .inl ⟨_, _, hraised.trans (if_pos hout), he.trans hfault⟩

theorem exec_followsItsRules (i : Instr) (s : State) : FollowsItsRules i s := by
  cases i with
  | cls => exact .inr ⟨rfl, _, rfl, frame_clearFramebuffer_advance s⟩
  | rts =>
    obtain ⟨h, he⟩ | ⟨h, he⟩ := exec_rts_cases s
    · exact .inr ⟨if_neg (Nat.ne_of_gt h), _, he, frame_returned s h⟩
    · exact .inl ⟨_, _, if_pos h, he⟩
  | call nnn =>
    obtain ⟨h, he⟩ | ⟨h, he⟩ := exec_call_cases s nnn
    · exact .inr ⟨if_neg (Nat.ne_of_lt h), _, he, frame_called s h _⟩
    · exact .inl ⟨_, _, if_pos h, he⟩
  | jump _ | jumpPlusV0 _ | skipEqImm _ _ | skipNeImm _ _ | skipEqReg _ _ | skipNeReg _ _ =>
    exact .inr ⟨rfl, _, rfl, frame_setPc s _⟩
  | movImm x _ | addImm x _ | mov x _ | or x _ | and x _ | xor x _ | getDelay x =>
    exact .inr ⟨rfl, _, rfl, frame_setV_advance s x _⟩
  | add x _ | sub x _ | subb x _ => exact .inr ⟨rfl, _, rfl, frame_setResultAndFlag_advance s x _ _⟩
  | shr x _ | shl x _ => exact .inr ⟨rfl, _, rfl, frame_flagThenResult_advance s x _ _⟩
  | randAnd x nn => exact .inr ⟨rfl, _, rfl, frame_drawByte_setV_advance s x _⟩
  | setI _ | addI _ | spriteChar _ => exact .inr ⟨rfl, _, rfl, frame_setI_advance s _⟩
  | setDelay _ => exact .inr ⟨rfl, _, rfl, frame_setDelay_advance s _⟩
  | setSound _ => exact .inr ⟨rfl, _, rfl, frame_setSound_advance s _⟩
  | draw x y n =>
    refine followsItsRules_of_checkedAccess rfl (frame_drawn_advance s _ _ _ _ _) (if_congr ?_ rfl rfl)
    simp only [State.base]; omega
  | movBcd x =>
    have hframe := frame_writeBytes_advance s s.base (bcdDigits (s.getV x))
    refine followsItsRules_of_checkedAccess rfl hframe (if_congr ?_ rfl rfl)
    simp only [State.base]; omega
  | regDump x =>
    refine followsItsRules_of_checkedAccess rfl ?_ (if_congr ?_ rfl rfl)
    · have hframe := frame_writeBytes_advance s s.base (s.regsUpTo x)
      rwa [s.length_regsUpTo] at hframe
    · simp only [State.base]; omega
  | regLoad x =>
    refine followsItsRules_of_checkedAccess rfl (frame_loadRegsUpTo_advance s x) (if_congr ?_ rfl rfl)
    simp only [State.base]; omega
  | skipKey x =>
    obtain ⟨hx, he⟩ | ⟨hx, he⟩ := exec_skipKey_cases s x
    · exact .inr ⟨if_neg (Nat.not_lt.2 hx), _, he, frame_setPc s _⟩
    · exact .inl ⟨_, _, if_pos hx, he⟩
  | skipNoKey x =>
    obtain ⟨hx, he⟩ | ⟨hx, he⟩ := exec_skipNoKey_cases s x
    · exact .inr ⟨if_neg (Nat.not_lt.2 hx), _, he, frame_setPc s _⟩
    · exact .inl ⟨_, _, if_pos hx, he⟩
  | getKey x =>
    obtain ⟨k, -, he⟩ | ⟨-, he⟩ := exec_getKey_cases s x
    · exact .inr ⟨rfl, _, he, frame_setV_advance s x _⟩
    · exact .inr ⟨rfl, _, he, Frame.refl s _⟩

section
variable {i : Instr} {s t : State}

/-- A raise is a next state in which the status alone is another. -/
theorem exec_of_raisedBy {cause : FaultCause} {info : Word} (h : raisedBy s i = some (cause, info)) :
    exec i s = .next { s with status := .faulted cause info } := by
  obtain ⟨c, f, hr, he⟩ | ⟨hr, -⟩ := exec_followsItsRules i s
  · cases hr.symm.trans h; exact he
  · cases hr.symm.trans h

/-- An instruction that leaves the status keeps its frame. Where it raised, the fault was recorded already, and nothing
changed. -/
theorem frame_of_exec (he : exec i s = .next t) (hstatus : t.status = s.status) : Frame (writesOf s i) s t := by
  obtain ⟨cause, info, -, hr⟩ | ⟨-, t', hn, hframe⟩ := exec_followsItsRules i s
  · cases he.symm.trans hr
    have hrecorded : Status.faulted cause info = s.status := hstatus
    have hself : s.enterFault cause info = s := by rw [State.enterFault, hrecorded]
    rw [hself]
    exact Frame.refl s _
  · cases he.symm.trans hn; exact hframe

end

/-- Settles O8: where the table has a fault the instruction raises it, and elsewhere its frame keeps the status. -/
theorem faultsAreThoseOfTheTable : Obligations.FaultsAreThoseOfTheTable := by
  refine fun i s hrun => ⟨fun cause info h => exec_of_raisedBy h, fun h => ?_⟩
  obtain ⟨_, _, hr, -⟩ | ⟨-, t, he, hframe⟩ := exec_followsItsRules i s
  · cases hr.symm.trans h
  · exact ⟨t, he, hframe.status.trans hrun⟩

/-- Settles O17, by the frame of each instruction. -/
theorem instructionsWriteOnlyWhatTheirRulesList : Obligations.InstructionsWriteOnlyWhatTheirRulesList :=
  fun _ _ _ => frame_of_exec

end Sys2Proof.Machine
end

section
/-! The step in each case of its front (spec/60_exceptions.md R231, R237), and the states in which it changes nothing
but the status: a Faulted core, an illegal word, and the end of a test run. -/

namespace Sys2Proof.Machine

/-! ### What a step can do -/

/-- The four cases of the step: the recorded fault, the fetch fault, the illegal word, the instruction at PC. -/
theorem step_cases (s : State) :
    (∃ cause info, s.status = .faulted cause info ∧ step s = .fault (.machineFault cause info)) ∨
    (s.status = .running ∧ 0xFFE < s.pc.toNat ∧ step s = raise s .fetchOutOfRange s.pc) ∨
    (s.status = .running ∧ s.pc.toNat ≤ 0xFFE ∧ s.atPc = none ∧
      ∃ b1 b2, step s = .fault (.decodeError b1 b2)) ∨
    (s.status = .running ∧ s.pc.toNat ≤ 0xFFE ∧ ∃ i, s.atPc = some i ∧ step s = exec i s) := by
  cases hstatus : s.status with
  | faulted cause info => exact .inl ⟨cause, info, rfl, step_of_faulted hstatus⟩
  | running =>
    by_cases hpc : s.pc.toNat ≤ 0xFFE
    · cases hdec : decode (s.mem.read s.pc.toNat) (s.mem.read (s.pc.toNat + 1)) with
      | decodeError b1 b2 =>
        have hat : s.atPc = none := by simp [State.atPc, State.fetchBytes_eq_some hpc, hdec]
        exact .inr (.inr (.inl ⟨rfl, hpc, hat, b1, b2, step_of_illegal hstatus hpc hdec⟩))
      | instr i =>
        have hat : s.atPc = some i := by simp [State.atPc, State.fetchBytes_eq_some hpc, hdec]
        exact .inr (.inr (.inr ⟨rfl, hpc, i, hat, step_of_instr hstatus hpc hdec⟩))
    · exact .inr (.inl ⟨rfl, Nat.lt_of_not_le hpc, step_of_unfetchable hstatus (Nat.lt_of_not_le hpc)⟩)

/-- Settles O6, by the last case of the front. -/
theorem stepRunsTheDecodedInstruction : Obligations.StepRunsTheDecodedInstruction :=
  fun _ _ => step_of_instr

/-- Settles O9: an instruction completes or raises, and no case of the front refuses. -/
theorem noInstructionIsRefused : Obligations.NoInstructionIsRefused := by
  have hnext (i : Instr) (s : State) : ∃ t, exec i s = .next t := by
    obtain ⟨t, he, -⟩ | ⟨_, _, he⟩ := exec_completesOrRaises i s
    · exact ⟨t, he⟩
    · exact ⟨_, he⟩
  refine ⟨hnext, fun s r hr => ?_⟩
  obtain ⟨_, _, -, he⟩ | ⟨-, -, he⟩ | ⟨-, -, -, _, _, he⟩ | ⟨-, -, i, -, he⟩ := step_cases s
  · cases hr.symm.trans he
  · cases hr.symm.trans he
  · cases hr.symm.trans he
  · obtain ⟨t, ht⟩ := hnext i s
    cases hr.symm.trans (he.trans ht)

/-! ### A word placed for the next fetch -/

section
variable (s : State) (w : Word)

theorem State.withFetchWord_toNat : s.withFetchWord 16 w.toNat = s.placeWord w := by
  rw [State.withFetchWord, Nat.mod_eq_of_lt w.isLt, BitVec.ofNat_toNat, BitVec.setWidth_eq]

theorem State.placeWord_pc_le : (s.placeWord w).pc.toNat ≤ 0xFFE := by
  simp only [State.placeWord]
  split
  · assumption
  · decide

theorem State.fetchBytes_placeWord : (s.placeWord w).fetchBytes = some (highByte w, lowByte w) := by
  rw [State.fetchBytes_eq_some (s.placeWord_pc_le w)]
  exact congrArg some (Prod.ext (s.mem.read_writeBytes_inside _ (k := 0) (by simp))
    (s.mem.read_writeBytes_inside _ (k := 1) (by simp)))

end

/-- Settles O5: the placed bytes are the ones fetched, and they decode to the instruction. -/
theorem placedInstructionRunsNext : Obligations.PlacedInstructionRunsNext := by
  intro i s hi
  rw [s.withFetchWord_toNat]
  have hspells : decode (highByte (encode i)) (lowByte (encode i)) = .instr i := spells_encode hi
  have hrun : (s.placeWord (encode i)).status = .running := rfl
  simp only [step, State.nextAction, hrun, s.fetchBytes_placeWord, hspells]

/-! ### Host operations around a step that changes nothing -/

/-- The state with both timers replaced. -/
def State.withTimers (s : State) (dt st : Byte) : State := { s with dt := dt, st := st }

/-- The state with all that tick and set_keypad can write replaced. -/
def State.withInputs (s : State) (dt st : Byte) (keys : Vector Bool 16) : State :=
  (s.withTimers dt st).setKeypad keys

/-- Where a step changes nothing, whatever the timers and the keypad are, a run of the host without load_rom changes
only those. -/
theorem hostRun_of_stuck {s : State}
    (hstuck : ∀ dt st keys, (hostStep (s.withInputs dt st keys)).2 = s.withInputs dt st keys)
    (p : Params) (ops : List HostOp) (hops : ∀ rom, HostOp.loadRom rom ∉ ops) (dt st : Byte)
    (keys : Vector Bool 16) :
    ∃ dt' st' keys', hostRun p ops (s.withInputs dt st keys) = s.withInputs dt' st' keys' := by
  induction ops generalizing dt st keys with
  | nil => exact ⟨dt, st, keys, rfl⟩
  | cons op rest ih =>
    have hrest := ih fun rom hmem => hops rom (List.mem_cons_of_mem op hmem)
    cases op with
    | loadRom rom => exact absurd List.mem_cons_self (hops rom)
    | step =>
      simp only [hostRun, hostCall, hstuck]
      exact hrest dt st keys
    | tick => exact hrest _ _ keys
    | setKeypad keys' => exact hrest dt st keys'
    | framebuffer | inspect => exact hrest dt st keys

/-- Settles O10: a step of a Faulted core answers the recorded fault, whatever the timers and the keypad are. -/
theorem faultedCoreIsStuckUntilLoad : Obligations.FaultedCoreIsStuckUntilLoad := by
  intro p ops s cause info hstatus hops
  have hstep (dt st keys) : hostStep (s.withInputs dt st keys) = (.machineFault cause info, s.withInputs dt st keys) :=
    hostStep_of_machineFault (step_of_faulted hstatus)
  obtain ⟨dt, st, keys, ht⟩ :=
    hostRun_of_stuck (fun dt st keys => by rw [hstep]) p ops hops s.dt s.st s.keypad
  have hrun : hostRun p ops s = s.withInputs dt st keys := ht
  simp only [hrun]
  exact ⟨hstatus, by rw [hstep], rfl, rfl, rfl, rfl, rfl, rfl, fun rom h => by rw [State.loadRom_accepted _ h]; rfl⟩

/-- Settles O11: what is fetched depends on PC and memory alone, which no host operation but load_rom writes here. -/
theorem decodeErrorRepeats : Obligations.DecodeErrorRepeats := by
  intro p ops s byte1 byte2 hrunning hpc hdec hops
  have hstep (dt st keys) : hostStep (s.withInputs dt st keys) = (.decodeError byte1 byte2, s.withInputs dt st keys) :=
    hostStep_of_decodeError (step_of_illegal hrunning hpc hdec)
  obtain ⟨dt, st, keys, ht⟩ :=
    hostRun_of_stuck (fun dt st keys => by rw [hstep]) p ops hops s.dt s.st s.keypad
  have hrun : hostRun p ops s = s.withInputs dt st keys := ht
  simp only [hrun]
  exact ⟨hstep dt st keys, hrunning, rfl, rfl, rfl, rfl, rfl, rfl⟩

/-! ### The end of a test run -/

/-- An error outcome leaves everything but the status. -/
theorem hostStep_of_error {s : State} (h : (hostStep s).1 ≠ .ok) :
    ∃ status, (hostStep s).2 = { s with status := status } := by
  obtain ⟨_, _, -, he⟩ | ⟨-, -, he⟩ | ⟨-, -, -, _, _, he⟩ | ⟨hrun, -, i, -, he⟩ := step_cases s
  · exact ⟨s.status, by rw [hostStep_of_machineFault he]⟩
  · exact ⟨_, by rw [hostStep_of_next he]; rfl⟩
  · exact ⟨s.status, by rw [hostStep_of_decodeError he]⟩
  · obtain ⟨t, ht, hstatus⟩ | ⟨_, _, hraise⟩ := exec_completesOrRaises i s
    · rw [hostStep_of_next (he.trans ht), hstatus, hrun] at h
      exact absurd rfl h
    · exact ⟨_, by rw [hostStep_of_next (he.trans hraise)]; rfl⟩

/-- A step at an instruction that would change nothing changes nothing but the status. -/
theorem hostStep_of_exec_self {s : State} {i : Instr} (hat : s.atPc = some i) (hself : exec i s = .next s) :
    ∃ status, (hostStep s).2 = { s with status := status } := by
  by_cases hok : (hostStep s).1 = .ok
  · obtain ⟨_, _, -, he⟩ | ⟨-, -, he⟩ | ⟨-, -, hnone, -⟩ | ⟨-, -, j, hj, he⟩ := step_cases s
    · exact ⟨s.status, by rw [hostStep_of_machineFault he]⟩
    · exact ⟨_, by rw [hostStep_of_next he]; rfl⟩
    · cases hat.symm.trans hnone
    · cases hat.symm.trans hj
      exact ⟨s.status, by rw [hostStep_of_next (he.trans hself)]⟩
  · exact hostStep_of_error hok

/-- Settles O12: the three ends are a JUMP to its own address, a WAITKEY with no key pressed, and an error outcome. -/
theorem runEndsChangeNothingButStatus : Obligations.RunEndsChangeNothingButStatus := by
  intro s hends
  unfold runEnds at hends
  split at hends
  next nnn hat =>
    obtain hself | herror := Bool.or_eq_true_iff.1 hends
    · have hpc : zextAddr nnn = s.pc := eq_of_beq hself
      exact hostStep_of_exec_self hat (by rw [exec_jump, hpc, s.setPc_self])
    · exact hostStep_of_error (bne_iff_ne.1 herror)
  next x hat =>
    obtain hnone | herror := Bool.or_eq_true_iff.1 hends
    · obtain ⟨k, hk, -⟩ | ⟨-, he⟩ := exec_getKey_cases s x
      · cases hk.symm.trans (eq_of_beq hnone)
      · exact hostStep_of_exec_self hat he
    · exact hostStep_of_error (bne_iff_ne.1 herror)
  next => exact hostStep_of_error (bne_iff_ne.1 hends)

end Sys2Proof.Machine
end

section
/-! The invariant (spec/10_state.md R36, spec/41_control_flow.md R141, spec/60_exceptions.md R238): what an instruction
does to each of its parts when it completes, and that a raise keeps it because the fault is the one of PC. -/

namespace Sys2Proof.Machine

/-! ### States that meet the invariant -/

section
variable {s t : State}

/-- A Running state has no recorded fault to be precise. -/
theorem inv_of_running (hrun : t.status = .running) (hmem : t.mem.wf) (hpc : t.pc.toNat ≤ 0x10FE)
    (hstack : ∀ k, (h : k < 16) → (t.stack[k]).toNat ≤ 0x1000) : Inv t :=
  ⟨hmem, hpc, hstack, fun _ _ h => nomatch hrun.symm.trans h⟩

/-- Recording the fault that the state raises at PC keeps the invariant: the fault does not depend on the status. -/
theorem inv_enterFault (h : Inv s) {cause : FaultCause} {info : Word} (hfault : s.faultAtPc = some (cause, info)) :
    Inv (s.enterFault cause info) := by
  refine ⟨h.mem, h.pc, h.stack, fun c f hstatus => ?_⟩
  cases hstatus
  exact hfault

theorem faultAtPc_of_unfetchable (hpc : 0xFFE < s.pc.toNat) : s.faultAtPc = some (.fetchOutOfRange, s.pc) :=
  if_pos hpc

theorem faultAtPc_of_atPc (hpc : s.pc.toNat ≤ 0xFFE) {i : Instr} (hat : s.atPc = some i) :
    s.faultAtPc = raisedBy s i := by
  rw [State.faultAtPc, if_neg (Nat.not_lt.2 hpc), hat]

/-- Timers and keypad are no part of the invariant. -/
theorem inv_withInputs (h : Inv s) (dt st : Byte) (keys : Vector Bool 16) : Inv (s.withInputs dt st keys) :=
  ⟨h.mem, h.pc, h.stack, h.precise⟩

end

/-! ### An instruction that completes -/

@[simp] theorem toNat_zextByte (b : Byte) : (zextByte b).toNat = b.toNat := by
  have := b.isLt
  simp [zextByte]; omega

/-- Adding to a PC that a fetch can use does not wrap. -/
theorem toNat_add_of_fetchable {pc d : Word} (hpc : pc.toNat ≤ 0xFFE) (hd : d.toNat ≤ 4) :
    (pc + d).toNat = pc.toNat + d.toNat := by
  rw [BitVec.toNat_add]; omega

theorem toNat_jumpPlusV0_target (nnn : BitVec 12) (b : Byte) :
    (zextAddr nnn + zextByte b).toNat = nnn.toNat + b.toNat := by
  have := nnn.isLt
  have := b.isLt
  rw [BitVec.toNat_add, toNat_zextAddr, toNat_zextByte]; omega

section
variable {i : Instr} {s t : State} (hinv : Inv s) (hpc : s.pc.toNat ≤ 0xFFE)
include hinv hpc

/-- A completed instruction that moves PC by at most 4 and leaves the stack keeps the invariant when it leaves memory in
canonical form. -/
theorem inv_of_moves {d : Word} (hrun : t.status = .running) (hd : d.toNat ≤ 4) (ht : t.pc = s.pc + d)
    (hstack : t.stack = s.stack) (hmem : t.mem.wf) : Inv t := by
  refine inv_of_running hrun hmem ?_ (hstack ▸ hinv.stack)
  rw [ht, toNat_add_of_fetchable hpc hd]; omega

/-- The same for the next instruction in address order, with the same stack and memory. -/
theorem inv_of_advance (hrun : t.status = .running) (ht : t.pc = s.pc + 2) (hstack : t.stack = s.stack)
    (hmem : t.mem = s.mem) : Inv t :=
  inv_of_moves hinv hpc hrun (d := 2) (by decide) ht hstack (hmem ▸ hinv.mem)

theorem inv_skipIf (hrun : s.status = .running) (c : Bool) : Inv (s.skipIf c) := by
  cases c
  · exact inv_of_advance hinv hpc hrun rfl rfl rfl
  · exact inv_of_moves hinv hpc hrun (d := 4) (by decide) rfl rfl hinv.mem

omit hpc in
/-- A jump to an address that the rules can write. -/
theorem inv_setPc (hrun : s.status = .running) {w : Word} (hw : w.toNat ≤ 0x10FE) : Inv (s.setPc w) :=
  inv_of_running hrun hinv.mem hw hinv.stack

theorem inv_called (hrun : s.status = .running) (h : s.sp.val < 16) (nnn : BitVec 12) :
    Inv (s.called h (zextAddr nnn)) := by
  refine inv_of_running hrun hinv.mem ?_ fun k hk => ?_
  · have := nnn.isLt
    show (zextAddr nnn).toNat ≤ 0x10FE
    rw [toNat_zextAddr]; omega
  · show ((s.stack.set s.sp.val (s.pc + 2))[k]).toNat ≤ 0x1000
    rw [Vector.getElem_set]
    split
    · rw [toNat_add_of_fetchable hpc (by decide)]; exact Nat.add_le_add_right hpc 2
    · exact hinv.stack k hk

omit hpc in
theorem inv_returned (hrun : s.status = .running) (h : 0 < s.sp.val) : Inv (s.returned h) :=
  inv_of_running hrun hinv.mem (Nat.le_trans (hinv.stack _ _) (by decide)) hinv.stack

/-- A checked access that completes keeps the invariant when it moves PC on, leaves the stack and, with every address in
range, leaves memory in canonical form. -/
theorem inv_checkedAccess {done : State} {base n : Nat} (hrun : t.status = .running)
    (he : checkedAccess s base n done = .next t) (hadv : done.pc = s.pc + 2) (hstack : done.stack = s.stack)
    (hmem : n = 0 ∨ base + n ≤ 0x1000 → done.mem.wf) : Inv t := by
  obtain ⟨hin, hdone⟩ | ⟨-, hfault⟩ := checkedAccess_cases s done base n
  · cases he.symm.trans hdone
    exact inv_of_moves hinv hpc hrun (d := 2) (by decide) hadv hstack (hmem hin)
  · cases he.symm.trans hfault
    cases hrun

/-- A completed instruction keeps the invariant. -/
theorem inv_of_exec (hrun : s.status = .running) (he : exec i s = .next t) (hstatus : t.status = .running) :
    Inv t := by
  cases i with
  | cls =>
    cases he
    exact inv_of_moves hinv hpc hrun (d := 2) (by decide) rfl rfl (wf_clearFramebuffer hinv.mem)
  | rts =>
    obtain ⟨h, hr⟩ | ⟨-, hr⟩ := exec_rts_cases s <;> cases he.symm.trans hr
    · exact inv_returned hinv hrun h
    · cases hstatus
  | call nnn =>
    obtain ⟨h, hr⟩ | ⟨-, hr⟩ := exec_call_cases s nnn <;> cases he.symm.trans hr
    · exact inv_called hinv hpc hrun h nnn
    · cases hstatus
  | jump nnn =>
    cases he
    have := nnn.isLt
    exact inv_setPc hinv hrun (by rw [toNat_zextAddr]; omega)
  | jumpPlusV0 nnn =>
    cases he
    have := nnn.isLt
    have := (s.getV 0).isLt
    exact inv_setPc hinv hrun (by rw [toNat_jumpPlusV0_target]; omega)
  | skipEqImm _ _ | skipNeImm _ _ | skipEqReg _ _ | skipNeReg _ _ =>
    cases he
    exact inv_skipIf hinv hpc hrun _
  | skipKey x =>
    obtain ⟨-, hr⟩ | ⟨-, hr⟩ := exec_skipKey_cases s x <;> cases he.symm.trans hr
    · exact inv_skipIf hinv hpc hrun _
    · cases hstatus
  | skipNoKey x =>
    obtain ⟨-, hr⟩ | ⟨-, hr⟩ := exec_skipNoKey_cases s x <;> cases he.symm.trans hr
    · exact inv_skipIf hinv hpc hrun _
    · cases hstatus
  | getKey x =>
    obtain ⟨k, -, hr⟩ | ⟨-, hr⟩ := exec_getKey_cases s x <;> cases he.symm.trans hr
    · exact inv_of_advance hinv hpc hrun rfl rfl rfl
    · exact hinv
  | draw x y n => exact inv_checkedAccess hinv hpc hstatus he rfl rfl fun _ => wf_drawRows _ _ _ _ hinv.mem
  | movBcd x =>
    refine inv_checkedAccess hinv hpc hstatus he rfl rfl fun hin => Memory.wf_writeBytes _ hinv.mem ?_
    rw [length_bcdDigits]; omega
  | regDump x =>
    refine inv_checkedAccess hinv hpc hstatus he rfl rfl fun hin => Memory.wf_writeBytes _ hinv.mem ?_
    rw [s.length_regsUpTo]; omega
  | regLoad x => exact inv_checkedAccess hinv hpc hstatus he rfl rfl fun _ => hinv.mem
  | _ => cases he; exact inv_of_advance hinv hpc hrun rfl rfl rfl

end

/-! ### Steps and host operations -/

/-- Settles O13: the core is Running, memory lists nothing, PC is 0x200 and every stack entry 0. -/
theorem resetSatisfiesTheInvariant : Obligations.ResetSatisfiesTheInvariant :=
  inv_of_running rfl Memory.wf_nil (by decide) (by decide)

/-- Settles O14: of the cases of the front, the fetch fault and the instruction have a next state; an instruction raises
the fault of PC, or it completes. -/
theorem stepKeepsTheInvariant : Obligations.StepKeepsTheInvariant := by
  intro s t hinv ht
  obtain ⟨_, _, -, he⟩ | ⟨-, hpc, he⟩ | ⟨-, -, -, _, _, he⟩ | ⟨hrun, hpc, i, hat, he⟩ := step_cases s
  · cases ht.symm.trans he
  · cases ht.symm.trans he
    exact inv_enterFault hinv (faultAtPc_of_unfetchable hpc)
  · cases ht.symm.trans he
  · obtain ⟨_, _, hraised, hr⟩ | ⟨-, t', hr, hframe⟩ := exec_followsItsRules i s
    · cases ht.symm.trans (he.trans hr)
      exact inv_enterFault hinv ((faultAtPc_of_atPc hpc hat).trans hraised)
    · cases ht.symm.trans (he.trans hr)
      exact inv_of_exec hinv hpc hrun hr (hframe.status.trans hrun)

/-- The state after step() is the next state of the step, or, where there is none, the state before it. -/
theorem hostStep_state (s : State) : step s = .next (hostStep s).2 ∨ (hostStep s).2 = s := by
  unfold hostStep
  split
  · next h => exact .inl h
  all_goals exact .inr rfl

theorem wf_loadedMemory (font : Font) {rom : List Byte} (h : rom.length ≤ 0xE00) : (loadedMemory font rom).wf := by
  have hzeroed : zeroedMemory.wf := Memory.wf_writeBytes _ Memory.wf_nil (by simp)
  have hfont := Memory.wf_writeBytes ((List.range 80).map (fontByte font)) hzeroed (base := 0) (by simp)
  exact Memory.wf_writeBytes rom hfont (by omega)

theorem inv_loadRom {s : State} (hinv : Inv s) (p : Params) (rom : List Byte) : Inv (s.loadRom p rom).2 := by
  by_cases h : rom.length ≤ p.romMax.val
  · rw [s.loadRom_accepted h]
    have := p.romMax.isLt
    exact inv_of_running rfl (wf_loadedMemory p.font (by omega)) resetSatisfiesTheInvariant.pc
      resetSatisfiesTheInvariant.stack
  · rw [State.loadRom, if_pos (Nat.lt_of_not_le h)]
    exact hinv

/-- Settles O15: the host's own operations write timers, keypad or a loaded state, and a step keeps the invariant. -/
theorem hostOperationsKeepTheInvariant : Obligations.HostOperationsKeepTheInvariant := by
  intro p op s hinv
  cases op with
  | loadRom rom => exact inv_loadRom hinv p rom
  | step =>
    obtain hnext | hsame := hostStep_state s
    · exact stepKeepsTheInvariant s _ hinv hnext
    · exact hsame.symm ▸ hinv
  | tick => exact inv_withInputs hinv s.tick.dt s.tick.st s.keypad
  | setKeypad keys => exact inv_withInputs hinv s.dt s.st keys
  | framebuffer | inspect => exact hinv

end Sys2Proof.Machine
end

section
/-! The canonical form of memory (log 7), and load_rom and tick (spec/70_reset_and_hazards.md R270, R271,
spec/60_exceptions.md R250). -/

namespace Sys2Proof.Machine

/-! ### The canonical form -/

/-- A listed byte is what its address reads as: the addresses before it on the list are lower. -/
theorem Memory.read_of_mem {m : Memory} (h : m.Pairwise (fun c d => c.1 < d.1)) {c : Host.Cell} (hc : c ∈ m) :
    m.read c.1 = c.2 := by
  induction m with
  | nil => cases hc
  | cons d rest ih =>
    obtain ⟨hd, hrest⟩ := List.pairwise_cons.1 h
    rw [Memory.read_cons]
    obtain rfl | hc := List.mem_cons.1 hc
    · exact if_pos rfl
    · rw [if_neg (Nat.ne_of_lt (hd c hc)), ih hrest hc]

/-- A byte other than the unlisted value of its address is listed. -/
theorem Memory.mem_of_read {m : Memory} {a : Nat} (h : m.read a ≠ background a) : (a, m.read a) ∈ m := by
  induction m with
  | nil => exact absurd (Memory.read_nil a) h
  | cons d rest ih =>
    rw [Memory.read_cons] at h ⊢
    split at h
    next hd => rw [if_pos hd, ← hd]; exact List.mem_cons_self
    next hd => rw [if_neg hd]; exact List.mem_cons_of_mem d (ih h)

/-- In canonical form the list says no more and no less than the reads do. -/
theorem Memory.mem_iff_read {m : Memory} (h : m.wf) (c : Host.Cell) :
    c ∈ m ↔ c.1 < 0x1000 ∧ m.read c.1 = c.2 ∧ c.2 ≠ background c.1 := by
  obtain ⟨hsorted, hcells⟩ := h
  constructor
  · intro hc
    obtain ⟨haddr, hbyte⟩ := hcells c hc
    exact ⟨haddr, Memory.read_of_mem hsorted hc, hbyte⟩
  · rintro ⟨-, hread, hbyte⟩
    have hmem := Memory.mem_of_read (m := m) (a := c.1) (hread ▸ hbyte)
    rwa [hread] at hmem

/-- Settles O16: two sorted lists with the same cells are the same list. -/
theorem memoryFormIsCanonical : Obligations.MemoryFormIsCanonical := by
  intro m m' h h' hread
  have : Std.Irrefl fun c d : Host.Cell => c.1 < d.1 := ⟨fun c => Nat.lt_irrefl c.1⟩
  have : Std.Antisymm fun c d : Host.Cell => c.1 < d.1 := ⟨fun _ _ hcd hdc => absurd hcd (Nat.lt_asymm hdc)⟩
  refine List.Pairwise.eq_of_mem_iff h.1 h'.1 fun c => ?_
  rw [Memory.mem_iff_read h, Memory.mem_iff_read h']
  exact and_congr_right fun hc => by rw [hread c.1 hc]

/-! ### load_rom -/

theorem read_zeroedMemory (a : Nat) : zeroedMemory.read a = 0 := by
  rw [zeroedMemory, Memory.read_writeBytes, if_pos (Nat.zero_le a), Memory.read_nil, List.getElem?_replicate]
  split
  · rfl
  · exact background_above (by omega)

section
variable (font : Font) (rom : List Byte)

theorem read_loadedMemory_font {k : Nat} (h : k < 80) : (loadedMemory font rom).read k = fontByte font k := by
  rw [loadedMemory, Memory.read_writeBytes, if_neg (by omega), Memory.read_writeBytes, if_pos (Nat.zero_le k)]
  simp [h]

theorem read_loadedMemory_rom {k : Nat} (h : k < rom.length) : (loadedMemory font rom).read (0x200 + k) = rom[k] :=
  Memory.read_writeBytes_inside _ 0x200 h

theorem read_loadedMemory_rest {a : Nat} (hfont : 80 ≤ a) (hrom : ¬ (0x200 ≤ a ∧ a < 0x200 + rom.length)) :
    (loadedMemory font rom).read a = 0 := by
  rw [loadedMemory, Memory.read_writeBytes_outside _ _ _ _ hrom,
    Memory.read_writeBytes_outside _ _ _ _ (by simp; omega), read_zeroedMemory]

end

/-- Settles O50: an accepted load is the reset state with the loaded memory, and a longer ROM is refused. -/
theorem loadRomResetsTheCore : Obligations.LoadRomResetsTheCore := by
  refine fun p rom s => ⟨fun h => ⟨_, s.loadRom_accepted h, fun k hk => read_loadedMemory_font _ _ hk,
    fun a hlow hhigh => read_loadedMemory_rest _ _ hlow (by omega), fun k hk => read_loadedMemory_rom _ _ hk,
    fun a hlow _ => read_loadedMemory_rest _ _ (by omega) (by omega), fun r => ?_, rfl, rfl, fun k hk => ?_, rfl, rfl,
    rfl, fun k => ?_, rfl, rfl⟩, fun h => if_pos h⟩
  · simp [State.getV, State.reset]
  · simp [State.reset]
  · simp [State.keyDown, State.reset]

/-- Loading nothing with the default font gives the power-on memory: it reads as the unlisted addresses do. -/
theorem loadedMemory_default : loadedMemory defaultFont [] = [] := by
  refine memoryFormIsCanonical _ _ (wf_loadedMemory defaultFont (Nat.zero_le _)) Memory.wf_nil fun a _ => ?_
  rw [Memory.read_nil]
  by_cases h : a < 80
  · exact read_loadedMemory_font defaultFont [] h
  · rw [background_above (by omega)]
    exact read_loadedMemory_rest defaultFont [] (by omega) (by simp)

/-- Settles O51: the memory of an empty load lists nothing, and the word at 0x200 is then 0x0000, which is illegal. -/
theorem powerOnIsAnEmptyLoad : Obligations.PowerOnIsAnEmptyLoad := by
  refine ⟨fun s => ?_, hostStep_of_decodeError (step_of_illegal rfl (by decide) (by decide))⟩
  rw [s.loadRom_accepted (Nat.zero_le _)]
  show (LoadReply.loaded, { State.reset with mem := loadedMemory defaultFont [], draws := s.draws }) = _
  rw [loadedMemory_default]
  rfl

/-! ### tick -/

/-- One tick takes one off a timer, and leaves a timer at zero there. -/
theorem toNat_countDown (b : Byte) : (if b = 0 then 0 else b - 1).toNat = b.toNat - 1 := by
  split
  next h => rw [h]; rfl
  next h => bv_omega

/-- Settles O52, by induction on the number of ticks. -/
theorem ticksCountBothTimersDown : Obligations.TicksCountBothTimersDown := by
  intro n s
  induction n with
  | zero => exact ⟨s.dt, s.st, rfl, rfl, rfl⟩
  | succ n ih =>
    obtain ⟨dt, st, hticks, hdt, hst⟩ := ih
    refine ⟨_, _, by rw [Function.iterate_succ_apply', hticks]; rfl, ?_, ?_⟩
    · rw [toNat_countDown, hdt, Nat.sub_sub]
    · rw [toNat_countDown, hst, Nat.sub_sub]

end Sys2Proof.Machine
end

section
/-! Who writes and who reads the two timers (spec/10_state.md R39, R40). That an instruction does not write one is in
its frame; that it does not read one is that replacing the timers commutes with it. -/

namespace Sys2Proof.Machine

/-! ### Writers -/

section
variable {i : Instr} {s t : State}

/-- A next state is one in which the status alone is another, or one inside the instruction's frame. -/
theorem exec_next_cases (he : exec i s = .next t) :
    (∃ cause info, t = s.enterFault cause info) ∨ Frame (writesOf s i) s t := by
  obtain ⟨cause, info, -, hr⟩ | ⟨-, t', hr, hframe⟩ := exec_followsItsRules i s
  · cases he.symm.trans hr; exact .inl ⟨cause, info, rfl⟩
  · cases he.symm.trans hr; exact .inr hframe

theorem exec_keepsSound (hi : ∀ x, i ≠ .setSound x) (he : exec i s = .next t) : t.st = s.st := by
  have hwrites : (writesOf s i).st = false := by
    cases i with
    | setSound x => exact absurd rfl (hi x)
    | _ => rfl
  obtain ⟨_, _, rfl⟩ | hframe := exec_next_cases he
  · rfl
  · exact hframe.st hwrites

theorem exec_keepsDelay (hi : ∀ x, i ≠ .setDelay x) (he : exec i s = .next t) : t.dt = s.dt := by
  have hwrites : (writesOf s i).dt = false := by
    cases i with
    | setDelay x => exact absurd rfl (hi x)
    | _ => rfl
  obtain ⟨_, _, rfl⟩ | hframe := exec_next_cases he
  · rfl
  · exact hframe.dt hwrites

end

/-! ### Readers -/

section
variable (s : State) (dt st : Byte)

@[simp] theorem State.withTimers_pc : (s.withTimers dt st).pc = s.pc := rfl
@[simp] theorem State.keyOperand_withTimers (x : Reg) : (s.withTimers dt st).keyOperand x = s.keyOperand x := rfl
@[simp] theorem State.firstPressed_withTimers : (s.withTimers dt st).firstPressed = s.firstPressed := rfl

theorem State.push_withTimers (w : Word) :
    (s.withTimers dt st).push w = (s.push w).map (·.withTimers dt st) := by
  obtain ⟨h, hp⟩ | ⟨h, hp⟩ := s.push_cases w
  · rw [hp]; exact dif_pos h
  · rw [hp]; exact dif_neg (Nat.not_lt.2 (Nat.le_of_eq h.symm))

theorem State.pop_withTimers :
    (s.withTimers dt st).pop = s.pop.map fun p => (p.1, p.2.withTimers dt st) := by
  obtain ⟨h, hp⟩ | ⟨h, hp⟩ := s.pop_cases
  · rw [hp]; exact dif_pos h
  · rw [hp]; exact dif_neg (Nat.not_lt.2 (Nat.le_of_eq h))

theorem checkedAccess_withTimers {s done done' : State} {dt st : Byte} (h : done' = done.withTimers dt st)
    (base n : Nat) :
    checkedAccess (s.withTimers dt st) base n done' = mapNext (·.withTimers dt st) (checkedAccess s base n done) := by
  subst h
  unfold checkedAccess
  cases firstOutOfRange base n <;> rfl

/-- Replacing the timers before an instruction other than the three timer moves is replacing them after: what the
others branch on is SP, an address, a register or the keypad. -/
theorem exec_withTimers {i : Instr} (hi : ∀ x, i ≠ .getDelay x ∧ i ≠ .setDelay x ∧ i ≠ .setSound x) :
    exec i (s.withTimers dt st) = mapNext (·.withTimers dt st) (exec i s) := by
  cases i with
  | call nnn =>
    simp only [exec, execCall, State.push_withTimers, State.withTimers_pc]
    cases s.push (s.pc + 2) <;> rfl
  | rts =>
    simp only [exec, execRts, State.pop_withTimers]
    cases s.pop <;> rfl
  | draw x y n | movBcd x | regDump x | regLoad x => exact checkedAccess_withTimers (by rfl) _ _
  | skipKey x =>
    simp only [exec, execSkipKey, State.keyOperand_withTimers]
    cases s.keyOperand x <;> rfl
  | skipNoKey x =>
    simp only [exec, execSkipNoKey, State.keyOperand_withTimers]
    cases s.keyOperand x <;> rfl
  | getKey x =>
    simp only [exec, execGetKey, State.firstPressed_withTimers]
    cases s.firstPressed <;> rfl
  | getDelay x | setDelay x | setSound x => exact absurd (hi x) (by simp)
  | _ => rfl

end

/-- ST is read by no instruction: with another ST the next state is the same but for its ST. -/
theorem exec_withSound {i : Instr} {s t : State} (he : exec i s = .next t) (b : Byte) :
    ∃ b', exec i { s with st := b } = .next { t with st := b' } := by
  by_cases hi : ∀ x, i ≠ .getDelay x ∧ i ≠ .setDelay x ∧ i ≠ .setSound x
  · have hdt : t.dt = s.dt := exec_keepsDelay (fun x => (hi x).2.1) he
    have hcomm := exec_withTimers s s.dt b hi
    rw [he, mapNext_next, ← hdt] at hcomm
    exact ⟨b, hdt ▸ hcomm⟩
  · obtain ⟨x, hx⟩ := not_forall.1 hi
    obtain rfl | rfl | rfl : i = .getDelay x ∨ i = .setDelay x ∨ i = .setSound x := by tauto
    all_goals cases he; exact ⟨_, rfl⟩

/-- DT is read by MOV Vx,DELAY alone: with another DT the next state of any other instruction is the same but for its
DT. -/
theorem exec_withDelay {i : Instr} {s t : State} (hi : ∀ x, i ≠ .getDelay x) (he : exec i s = .next t) (b : Byte) :
    ∃ b', exec i { s with dt := b } = .next { t with dt := b' } := by
  by_cases hset : ∀ x, i ≠ .setDelay x ∧ i ≠ .setSound x
  · have hst : t.st = s.st := exec_keepsSound (fun x => (hset x).2) he
    have hcomm := exec_withTimers s b s.st fun x => ⟨hi x, hset x⟩
    rw [he, mapNext_next, ← hst] at hcomm
    exact ⟨b, hst ▸ hcomm⟩
  · obtain ⟨x, hx⟩ := not_forall.1 hset
    obtain rfl | rfl : i = .setDelay x ∨ i = .setSound x := by tauto
    all_goals cases he; exact ⟨_, rfl⟩

/-- The host's step reads ST nowhere: the reply is the same, and the state but for its ST. -/
theorem hostStep_withSound (s : State) (b : Byte) : (hostStep { s with st := b }).1 = (hostStep s).1 ∧
    ∃ b', (hostStep { s with st := b }).2 = { (hostStep s).2 with st := b' } := by
  have hact : State.nextAction { s with st := b } = s.nextAction := rfl
  cases ha : s.nextAction with
  | halted cause info => simp only [hostStep, step, hact, ha]; exact ⟨trivial, b, rfl⟩
  | fetchFault => simp only [hostStep, step, hact, ha, raise]; exact ⟨rfl, b, rfl⟩
  | illegal b1 b2 => simp only [hostStep, step, hact, ha]; exact ⟨trivial, b, rfl⟩
  | run i =>
    obtain ⟨t, ht⟩ := noInstructionIsRefused.1 i s
    obtain ⟨b', hb'⟩ := exec_withSound ht b
    simp only [hostStep, step, hact, ha, ht, hb']
    exact ⟨trivial, b', rfl⟩

/-- Settles O18: the frames leave ST alone, no step reads it, the framebuffer is made of memory alone, and a tick counts
it down. -/
theorem soundTimerIsWrittenOnceAndNeverRead : Obligations.SoundTimerIsWrittenOnceAndNeverRead :=
  ⟨fun _ _ _ he hi => exec_keepsSound hi he, fun _ _ => ⟨_, rfl, rfl⟩, hostStep_withSound,
    fun s => toNat_countDown s.st, fun _ _ => rfl⟩

/-- Settles O19: the frames leave DT alone, no instruction but MOV Vx,DELAY reads it, and a tick counts it down. -/
theorem delayTimerIsReadByOneInstruction : Obligations.DelayTimerIsReadByOneInstruction :=
  ⟨fun _ _ _ he hi => exec_keepsDelay hi he, fun _ _ => ⟨_, rfl, rfl⟩, fun _ _ _ b hi he => exec_withDelay hi he b,
    fun _ _ => ⟨_, rfl, by simp⟩, fun s => toNat_countDown s.dt⟩

end Sys2Proof.Machine
end

section
/-! CALL, RTS, the computed jump and the register and key skips (spec/41_control_flow.md R141 to R144, R148,
spec/44_keypad_timers.md R210, R211, R213). Faults and frames are those of the tables. -/

namespace Sys2Proof.Machine

/-- Settles O23: CALL branches on SP alone, and the table has the fault at SP = 16. -/
theorem callPushesTheReturnAddress : Obligations.CallPushesTheReturnAddress := by
  refine fun nnn s => ⟨spells_encode (i := .call nnn) rfl, fun h => ?_, fun h => exec_of_raisedBy (if_pos h)⟩
  obtain ⟨_, he⟩ | ⟨hfull, -⟩ := exec_call_cases s nnn
  · exact ⟨_, he, Vector.getElem_set_self _, rfl, toNat_zextAddr nnn, frame_called s h _⟩
  · omega

/-- Settles O24: RTS branches on SP alone, and the table has the fault at SP = 0. -/
theorem rtsPopsTheReturnAddress : Obligations.RtsPopsTheReturnAddress := by
  refine fun s => ⟨spells_encode (i := .rts) rfl, fun h => ?_, fun h => exec_of_raisedBy (if_pos h)⟩
  obtain ⟨_, he⟩ | ⟨hempty, -⟩ := exec_rts_cases s
  · exact ⟨_, he, Vector.getElem?_eq_getElem _, rfl, frame_returned s h⟩
  · omega

/-- Settles O26: the jump is one write of PC, and the sum fits a word. -/
theorem jumpPlusV0IsNotMasked : Obligations.JumpPlusV0IsNotMasked :=
  fun nnn s => ⟨spells_encode (i := .jumpPlusV0 nnn) rfl, _, rfl, toNat_jumpPlusV0_target nnn (s.getV 0),
    frame_setPc s _⟩

/-- Settles O28: one conditional skip, on the inequality of the registers. -/
theorem skipOnUnequalRegisters : Obligations.SkipOnUnequalRegisters :=
  fun x y s => ⟨spells_encode (i := .skipNeReg x y) rfl,
    exec_skip (c := s.getV x != s.getV y) rfl bne_iff_ne.2 bne_eq_false_iff_eq.2⟩

/-- Settles O29: each is one conditional skip on the key that Vx names, or the fault of the table. -/
theorem keySkipsTestTheNamedKey : Obligations.KeySkipsTestTheNamedKey := by
  refine fun x s => ⟨spells_encode (i := .skipKey x) rfl, spells_encode (i := .skipNoKey x) rfl, fun h => ?_,
    fun h => ⟨exec_of_raisedBy (if_pos h), exec_of_raisedBy (if_pos h)⟩⟩
  obtain ⟨-, he⟩ | ⟨hx, -⟩ := exec_skipKey_cases s x
  · obtain ⟨-, hne⟩ | ⟨hx, -⟩ := exec_skipNoKey_cases s x
    · refine ⟨_, _, he, hne, frame_setPc s _, frame_setPc s _, fun hk => ?_, fun hk => ?_⟩ <;>
        simp [s.keyDown_eq h, hk]
    · omega
  · omega

/-- Settles O48: with no key pressed WAITKEY leaves the state, else it is one register write of the first one. -/
theorem waitKeyHoldsUntilAKeyIsPressed : Obligations.WaitKeyHoldsUntilAKeyIsPressed := by
  refine fun x s => ⟨spells_encode (i := .getKey x) rfl, fun hnone => ?_, fun k hk hdown hlower => ?_⟩
  · have hfirst : s.firstPressed = none :=
      State.firstPressed_eq_none.2 fun k hk => (s.keyDown_eq hk).trans (hnone k hk)
    simp only [exec, execGetKey, hfirst]
  · have hfirst : s.firstPressed = some k :=
      State.firstPressed_eq_some.2 ⟨hk, (s.keyDown_eq hk).trans hdown,
        fun j hj => (s.keyDown_eq (hj.trans hk)).trans (hlower j (hj.trans hk) hj)⟩
    obtain ⟨t, he, hv, hpc, hframe⟩ := exec_writesReg (i := .getKey x) (s := s) (x := x) (b := BitVec.ofNat 8 k)
      (by simp only [exec, execGetKey, hfirst])
    refine ⟨t, he, ?_, hpc, hframe⟩
    rw [hv, BitVec.toNat_ofNat]; omega

/-! ### Nested calls -/

/-- What a CALL and its RTS leave unchanged between them: SP, the entries in use, and all that neither writes. -/
structure SameBelowSp (s t : State) : Prop where
  sp : t.sp = s.sp
  live : ∀ k, (h : k < 16) → k < s.sp.val → t.stack[k] = s.stack[k]
  v : t.v = s.v
  index : t.i = s.i
  mem : t.mem = s.mem
  status : t.status = s.status

theorem execAll_append (is js : List Instr) (s : State) :
    execAll (is ++ js) s = (execAll is s).bind (execAll js) := by
  induction is generalizing s with
  | nil => rfl
  | cons i rest ih =>
    simp only [List.cons_append, execAll]
    split
    · exact ih _
    · rfl
    · rfl

theorem execAll_cons {i : Instr} {s t : State} (he : exec i s = .next t) (is : List Instr) :
    execAll (i :: is) s = execAll is t := by
  rw [execAll, he]

/-- A CALL, a body that comes back with SP and the live entries as the CALL left them, and an RTS: PC is after the CALL,
and SP and the live entries are those before it. -/
theorem execAll_callReturn {s t : State} (hroom : s.sp.val < 16) (nnn : BitVec 12) {body : List Instr}
    (hbody : execAll body (s.called hroom (zextAddr nnn)) = some t)
    (hsame : SameBelowSp (s.called hroom (zextAddr nnn)) t) :
    ∃ u, execAll (.call nnn :: (body ++ [.rts])) s = some u ∧ u.pc = s.pc + 2 ∧ SameBelowSp s u := by
  have hcall : exec (.call nnn) s = .next (s.called hroom (zextAddr nnn)) := by
    obtain ⟨_, he⟩ | ⟨hfull, -⟩ := exec_call_cases s nnn
    · exact he
    · omega
  have hsp : t.sp.val = s.sp.val + 1 := congrArg Fin.val hsame.sp
  obtain ⟨hused, hrts⟩ | ⟨hempty, -⟩ := exec_rts_cases t
  · refine ⟨t.returned hused, ?_, ?_, ?_⟩
    · rw [execAll_cons hcall, execAll_append, hbody, Option.bind_some, execAll_cons hrts]; rfl
    · have hentry := hsame.live s.sp.val hroom (Nat.lt_succ_self _)
      show t.stack[t.sp.val - 1] = s.pc + 2
      simp only [hsp, Nat.add_sub_cancel, hentry]
      exact Vector.getElem_set_self _
    · refine ⟨Fin.ext (by show t.sp.val - 1 = s.sp.val; omega), fun k hk hlive => ?_, hsame.v, hsame.index, hsame.mem,
        hsame.status⟩
      calc t.stack[k] = (s.stack.set s.sp.val (s.pc + 2))[k] := hsame.live k hk (Nat.lt_succ_of_lt hlive)
        _ = s.stack[k] := Vector.getElem_set_ne hroom hk (Nat.ne_of_gt hlive)
  · omega

/-- The calls of a list and as many returns. -/
def nest (targets : List (BitVec 12)) : List Instr :=
  targets.map Instr.call ++ List.replicate targets.length Instr.rts

theorem nest_cons (nnn : BitVec 12) (rest : List (BitVec 12)) :
    nest (nnn :: rest) = .call nnn :: (nest rest ++ [.rts]) := by
  simp [nest, List.replicate_succ']

/-- The nest comes back, by induction on the targets: each CALL and its RTS enclose the nest of the rest. -/
theorem execAll_nest (targets : List (BitVec 12)) (s : State) (hroom : s.sp.val + targets.length ≤ 16) :
    ∃ t, execAll (nest targets) s = some t ∧ (targets ≠ [] → t.pc = s.pc + 2) ∧ SameBelowSp s t := by
  induction targets generalizing s with
  | nil => exact ⟨s, rfl, fun h => absurd rfl h, rfl, fun _ _ _ => rfl, rfl, rfl, rfl, rfl⟩
  | cons nnn rest ih =>
    rw [List.length_cons] at hroom
    have hlt : s.sp.val < 16 := by omega
    obtain ⟨t, ht, -, hsame⟩ := ih (s.called hlt (zextAddr nnn)) (by show s.sp.val + 1 + _ ≤ 16; omega)
    obtain ⟨u, hu, hpc, hsame⟩ := execAll_callReturn hlt nnn ht hsame
    exact ⟨u, nest_cons nnn rest ▸ hu, fun _ => hpc, hsame⟩

/-- Settles O25, by the nest of its calls. -/
theorem nestedCallsReturn : Obligations.NestedCallsReturn := by
  intro targets s hne hroom
  obtain ⟨t, ht, hpc, hsp, hlive, hv, hindex, hmem, hstatus⟩ := execAll_nest targets s hroom
  exact ⟨t, ht, hpc hne, hsp, hlive, hv, hindex, hmem, hstatus⟩

end Sys2Proof.Machine
end

section
/-! The ALU (spec/42_alu.md R162 to R172) and the arithmetic on I (spec/43_index_memory.md R191, R192): each is its
result as an exact integer, narrowed, with the flag written last except by the shifts. -/

namespace Sys2Proof.Machine

/-! ### Results and flags as integers -/

section
variable (a b : Byte)

@[simp] theorem toNat_addBytes : (addBytes a b).toNat = (a.toNat + b.toNat) % 256 := by
  simp [addBytes]

@[simp] theorem toNat_subBytes : (subBytes a b).toNat = (a.toNat + 256 - b.toNat) % 256 := by
  simp [subBytes]

theorem addCarry_eq_true : addCarry a b = true ↔ 255 < a.toNat + b.toNat := decide_eq_true_iff
theorem addCarry_eq_false : addCarry a b = false ↔ a.toNat + b.toNat ≤ 255 := by simp [addCarry]
theorem noBorrow_eq_true : noBorrow a b = true ↔ b.toNat ≤ a.toNat := decide_eq_true_iff
theorem noBorrow_eq_false : noBorrow a b = false ↔ a.toNat < b.toNat := by simp [noBorrow]

@[simp] theorem toNat_shiftRight : (shiftRight a).toNat = a.toNat / 2 := by
  simp [shiftRight, Nat.shiftRight_eq_div_pow]

@[simp] theorem toNat_shiftOutRight : (shiftOutRight a).toNat = a.toNat % 2 := by
  simp [shiftOutRight, Nat.and_one_is_mod]

@[simp] theorem toNat_shiftLeft : (shiftLeft a).toNat = a.toNat * 2 % 256 := by
  simp [shiftLeft, Nat.shiftLeft_eq]

@[simp] theorem toNat_shiftOutLeft : (shiftOutLeft a).toNat = a.toNat / 128 := by
  simp [shiftOutLeft, Nat.shiftRight_eq_div_pow]

/-- The bit shifted out to the right leaves nothing when it is shifted right itself (D10, x = 15). -/
theorem shiftRight_shiftOutRight : shiftRight (shiftOutRight a) = 0 := by
  apply BitVec.eq_of_toNat_eq
  rw [toNat_shiftRight, toNat_shiftOutRight]
  exact Nat.div_eq_of_lt (Nat.mod_lt _ (by decide))

theorem flagByte_of_true {f : Bool} (h : f = true) : flagByte f = 1 := if_pos h
theorem flagByte_of_false {f : Bool} (h : f = false) : flagByte f = 0 := by rw [h]; rfl

end

/-! ### One register -/

/-- Settles O31: one register write, of the sum mod 256. -/
theorem addImmediateWrapsWithoutFlag : Obligations.AddImmediateWrapsWithoutFlag := by
  intro x nn s
  obtain ⟨t, he, hv, hpc, hframe⟩ := exec_writesReg (i := .addImm x nn) (s := s) rfl
  exact ⟨spells_encode (i := .addImm x nn) rfl, t, he, by rw [hv, toNat_addBytes], hpc, hframe⟩

/-- Settles O32: one register write each, and the operations of bytes act bit by bit. -/
theorem bitwiseOperationsWriteNoFlag : Obligations.BitwiseOperationsWriteNoFlag := by
  intro x y s
  obtain ⟨t, het, hvt, hpct, hframet⟩ := exec_writesReg (i := .or x y) (s := s) rfl
  obtain ⟨u, heu, hvu, hpcu, hframeu⟩ := exec_writesReg (i := .and x y) (s := s) rfl
  obtain ⟨w, hew, hvw, hpcw, hframew⟩ := exec_writesReg (i := .xor x y) (s := s) rfl
  refine ⟨spells_encode (i := .or x y) rfl, spells_encode (i := .and x y) rfl, spells_encode (i := .xor x y) rfl,
    t, u, w, het, heu, hew, fun k => ?_, hpct, hpcu, hpcw, hframet, hframeu, hframew⟩
  rw [hvt, hvu, hvw]
  exact ⟨BitVec.getLsbD_or, BitVec.getLsbD_and, BitVec.getLsbD_xor⟩

/-- Settles O36: one draw and one register write; a bit that the mask clears is 0 whatever the drawn byte is. -/
theorem randomByteIsMasked : Obligations.RandomByteIsMasked := by
  intro x nn s
  have hv : ((s.drawByte.2.setV x (s.drawByte.1 &&& nn)).advance).getV x = Config.randByte s.draws &&& nn := by simp
  refine ⟨spells_encode (i := .randAnd x nn) rfl, _, rfl, hv, fun k hk => ?_, rfl, rfl,
    frame_drawByte_setV_advance s x _⟩
  rw [hv, BitVec.getLsbD_and, hk, Bool.and_false]

/-! ### A result and its flag -/

/-- An instruction that writes a result and then its flag: the destination holds the result unless it is VF, VF holds
the flag, PC moves by 2 and nothing else changes. -/
theorem exec_writesResultAndFlag {i : Instr} {s : State} {x : Reg} {b : Byte} {f : Bool} {P Q : Prop}
    (he : exec i s = .next (s.setResultAndFlag x b f).advance) (hP : P → f = true) (hQ : Q → f = false) :
    ∃ t, exec i s = .next t ∧ (x ≠ VF → (t.getV x).toNat = b.toNat) ∧ (P → t.getV VF = 1) ∧ (Q → t.getV VF = 0) ∧
      t.pc = s.pc + 2 ∧ Frame (regAndFlag x) s t := by
  have hflag : ((s.setResultAndFlag x b f).advance).getV VF = flagByte f := by simp
  exact ⟨_, he, fun hx => by simp [hx], fun h => hflag.trans (flagByte_of_true (hP h)),
    fun h => hflag.trans (flagByte_of_false (hQ h)), rfl, frame_setResultAndFlag_advance s x b f⟩

/-- Settles O33: the sum and the carry. -/
theorem addSetsTheCarry : Obligations.AddSetsTheCarry := by
  refine fun x y s => ⟨spells_encode (i := .add x y) rfl, ?_⟩
  rw [← toNat_addBytes]
  exact exec_writesResultAndFlag rfl (addCarry_eq_true _ _).2 (addCarry_eq_false _ _).2

/-- Settles O34: the difference and no-borrow, in both orders of the operands. -/
theorem subtractsSetNoBorrow : Obligations.SubtractsSetNoBorrow := by
  refine fun x y s => ⟨spells_encode (i := .sub x y) rfl, spells_encode (i := .subb x y) rfl, ?_, ?_⟩
  · rw [← toNat_subBytes]
    exact exec_writesResultAndFlag rfl (noBorrow_eq_true _ _).2 (noBorrow_eq_false _ _).2
  · rw [← toNat_subBytes]
    exact exec_writesResultAndFlag rfl (noBorrow_eq_true _ _).2 (noBorrow_eq_false _ _).2

/-! ### The shifts -/

/-- The shifts write the flag first and then the shifted register as it then stands: apart from VF the register shows
its own shift and VF the flag, and VF itself the shift of the flag (D10). -/
theorem getV_flagThenShift (s : State) (x : Reg) (flag : Byte) (shift : Byte → Byte) :
    let captured := s.setV VF flag
    let t := (captured.setV x (shift (captured.getV x))).advance
    (x ≠ VF → t.getV x = shift (s.getV x) ∧ t.getV VF = flag) ∧ (x = VF → t.getV VF = shift flag) := by
  refine ⟨fun hx => ⟨by simp [hx], by simp [Ne.symm hx]⟩, fun hx => by simp [hx]⟩

/-- Settles O35: the two writes of each shift, with the values as integers. -/
theorem shiftsCaptureTheBitBeforeShifting : Obligations.ShiftsCaptureTheBitBeforeShifting := by
  refine fun x y s => ⟨spells_encode (i := .shr x y) rfl, spells_encode (i := .shl x y) rfl,
    ⟨_, rfl, fun hx => ?_, fun hx => ?_, rfl, frame_flagThenResult_advance s x _ _⟩,
    ⟨_, rfl, fun hx => ?_, fun hx => ?_, rfl, frame_flagThenResult_advance s x _ _⟩⟩
  · obtain ⟨hv, hflag⟩ := (getV_flagThenShift s x (shiftOutRight (s.getV x)) shiftRight).1 hx
    rw [hv, hflag]
    exact ⟨toNat_shiftRight _, toNat_shiftOutRight _⟩
  · rw [(getV_flagThenShift s x (shiftOutRight (s.getV x)) shiftRight).2 hx, shiftRight_shiftOutRight]
  · obtain ⟨hv, hflag⟩ := (getV_flagThenShift s x (shiftOutLeft (s.getV x)) shiftLeft).1 hx
    rw [hv, hflag]
    exact ⟨toNat_shiftLeft _, toNat_shiftOutLeft _⟩
  · have hbyte := (s.getV VF).isLt
    rw [(getV_flagThenShift s x (shiftOutLeft (s.getV x)) shiftLeft).2 hx, hx, toNat_shiftLeft, toNat_shiftOutLeft]
    omega

/-! ### I -/

/-- Settles O38: one write of I, of the sum mod 65536. -/
theorem addToIndexWrapsAtSixteenBits : Obligations.AddToIndexWrapsAtSixteenBits := by
  intro x s
  obtain ⟨t, he, hi, hpc, hframe⟩ := exec_writesIndex (i := .addI x) (s := s) rfl
  exact ⟨spells_encode (i := .addI x) rfl, t, he, by rw [hi, BitVec.toNat_add, toNat_zextByte], hpc, hframe⟩

/-- Settles O39: one write of I, of a product that fits a word. -/
theorem fontCharacterAddressIsFiveTimesVx : Obligations.FontCharacterAddressIsFiveTimesVx := by
  intro x s
  obtain ⟨t, he, hi, hpc, hframe⟩ := exec_writesIndex (i := .spriteChar x) (s := s) rfl
  have hbyte := (s.getV x).isLt
  refine ⟨spells_encode (i := .spriteChar x) rfl, t, he, ?_, hpc, hframe⟩
  rw [hi, BitVec.toNat_ofNat]; omega

end Sys2Proof.Machine
end

section
/-! The register dump and load (spec/43_index_memory.md R194, R195), and the fetch of stored bytes
(spec/20_memory.md R66, R67). -/

namespace Sys2Proof.Machine

/-- A dump in range stores V[k] at I + k, moves PC by 2 and changes nothing else. -/
theorem exec_regDump_inRange (x : Reg) (s : State) (hin : s.i.toNat + x.val ≤ 0xFFF) :
    ∃ t, exec (.regDump x) s = .next t ∧ (∀ k : Reg, k.val ≤ x.val → t.mem.read (s.i.toNat + k.val) = s.getV k) ∧
      t.pc = s.pc + 2 ∧ Frame { memFrom := s.i.toNat, memLen := x.val + 1 } s t := by
  have hlen := s.length_regsUpTo x
  obtain ⟨t, he, hread, hpc, hframe⟩ :=
    exec_storesBytes (i := .regDump x) (s := s) hlen rfl (Nat.succ_le_succ hin)
  refine ⟨t, he, fun k hk => ?_, hpc, hframe⟩
  have hlt : k.val < (s.regsUpTo x).length := by omega
  have hentry := s.getElem_regsUpTo x k.val hk
  rw [List.getElem?_eq_getElem hlt, Option.some_inj] at hentry
  exact (hread k.val hlt).trans hentry

/-- A load in range reads V[k] from I + k, moves PC by 2 and changes nothing else. -/
theorem exec_regLoad_inRange (x : Reg) (s : State) (hin : s.i.toNat + x.val ≤ 0xFFF) :
    ∃ t, exec (.regLoad x) s = .next t ∧ (∀ k : Reg, k.val ≤ x.val → t.getV k = s.mem.read (s.i.toNat + k.val)) ∧
      t.pc = s.pc + 2 ∧ Frame { regs := fun r => decide (r.val ≤ x.val) } s t := by
  refine ⟨_, checkedAccess_inRange s _ (.inr (Nat.succ_le_succ hin)), fun k hk => ?_, rfl,
    frame_loadRegsUpTo_advance s x⟩
  rw [State.getV_advance, State.getV_loadRegsUpTo, if_pos hk]
  rfl

/-- Settles O41: one store of the registers in range, and the fault of the table out of it. -/
theorem registerDumpStoresV0ToVx : Obligations.RegisterDumpStoresV0ToVx :=
  fun x s => ⟨spells_encode (i := .regDump x) rfl, exec_regDump_inRange x s, fun hout => exec_of_raisedBy (if_pos hout)⟩

/-- Settles O42: one load of the registers in range, and the fault of the table out of it. -/
theorem registerLoadReadsV0ToVx : Obligations.RegisterLoadReadsV0ToVx :=
  fun x s => ⟨spells_encode (i := .regLoad x) rfl, exec_regLoad_inRange x s, fun hout => exec_of_raisedBy (if_pos hout)⟩

/-- Settles O43: the load reads the bytes that the dump stored. -/
theorem dumpThenLoadRestoresRegisters : Obligations.DumpThenLoadRestoresRegisters := by
  intro x s t u hin hdump hi hmem
  obtain ⟨t', he, hstored, -, -⟩ := exec_regDump_inRange x s hin
  cases hdump.symm.trans he
  obtain ⟨w, hload, hloaded, -, -⟩ := exec_regLoad_inRange x u (hi ▸ hin)
  refine ⟨w, hload, fun k hk => ?_⟩
  rw [hloaded k hk, hi, hmem _ (Nat.le_add_right _ _) (Nat.add_le_add_left hk _), hstored k hk]

/-- Settles O21: the bytes at I and I + 1 are V0 and V1 after the dump. -/
theorem storedBytesAreFetched : Obligations.StoredBytesAreFetched := by
  intro x s t hx hin hdump
  obtain ⟨t', he, hstored, -, -⟩ := exec_regDump_inRange x s hin
  cases hdump.symm.trans he
  rw [State.fetchBytes_eq_some (s := { t with pc := s.i }) (by show s.i.toNat ≤ 0xFFE; omega)]
  exact congrArg some (Prod.ext (hstored 0 (Nat.zero_le _)) (hstored 1 hx))

end Sys2Proof.Machine
end

section
/-! CLS and single pixels (spec/40_display.md R121 to R123, spec/20_memory.md R62). -/

namespace Sys2Proof.Machine

/-! ### CLS -/

/-- Settles O44: the framebuffer reads 0, and a fetch inside it reads two of those zeros. -/
theorem clearScreenZeroesTheFramebuffer : Obligations.ClearScreenZeroesTheFramebuffer := by
  intro s
  have hzero : ∀ a, 0xF00 ≤ a → a ≤ 0xFFF → (clearFramebuffer s.mem).read a = 0 := fun a hlow hhigh =>
    (read_clearFramebuffer s.mem a).trans (if_pos ⟨hlow, Nat.lt_succ_of_le hhigh⟩)
  refine ⟨spells_encode (i := .cls) rfl, _, rfl, hzero, rfl, frame_clearFramebuffer_advance s,
    fun hrun hlow hhigh => step_of_illegal hrun hhigh ?_⟩
  rw [State.advance_mem, State.setMem_mem, hzero _ hlow (by omega), hzero _ (by omega) (by omega)]
  decide

/-! ### Bits of a byte under the masks of the display -/

/-- The mask 0x80 >> k has the one bit 7 - k. -/
theorem mask_eq_twoPow {k : Nat} (hk : k < 8) : 0x80#8 >>> k = BitVec.twoPow 8 (7 - k) := by
  interval_cases k <;> rfl

/-- Testing a byte under the mask reads that bit. -/
theorem masked_ne_zero (b : Byte) {k : Nat} (hk : k < 8) : (b &&& (0x80#8 >>> k) != 0) = b.getLsbD (7 - k) := by
  rw [mask_eq_twoPow hk, BitVec.and_twoPow]
  cases b.getLsbD (7 - k)
  · rfl
  · interval_cases k <;> rfl

/-- Toggling a byte under the mask toggles that bit and no other. -/
theorem getLsbD_xor_mask (b : Byte) {k : Nat} (hk : k < 8) (j : Nat) :
    (b ^^^ (0x80#8 >>> k)).getLsbD j = (b.getLsbD j ^^ decide (7 - k = j)) := by
  have hbit : 7 - k < 8 := by omega
  rw [mask_eq_twoPow hk, BitVec.getLsbD_xor, BitVec.getLsbD_twoPow]
  simp [hbit]

/-! ### Pixels -/

theorem pixelAddress_eq (x y : Nat) : pixelAddress x y = 0xF00 + 8 * y + x / 8 := by
  unfold pixelAddress; omega

theorem pixelMask_eq (x y : Nat) : pixelMask x y = 0x80#8 >>> (x % 8) := by
  have hcolumn : (y * 64 + x) % 8 = x % 8 := by omega
  rw [pixelMask, hcolumn]

theorem Memory.pixel_eq_getLsbD (m : Memory) (x y : Nat) :
    m.pixel x y = (m.read (pixelAddress x y)).getLsbD (7 - x % 8) := by
  rw [Memory.pixel, pixelMask_eq]
  exact masked_ne_zero _ (Nat.mod_lt x (by decide))

/-- A toggle changes the one pixel: another pixel is in another byte, or another bit of the same one. -/
theorem Memory.pixel_xorPixel (m : Memory) {x y px py : Nat} (hx : x < 64) (hpx : px < 64) :
    (m.xorPixel x y).2.pixel px py = (m.pixel px py ^^ decide (px = x ∧ py = y)) := by
  simp only [Memory.pixel_eq_getLsbD, Memory.xorPixel, Memory.read_write, pixelAddress_eq]
  split
  next hbyte =>
    rw [pixelMask_eq, getLsbD_xor_mask _ (Nat.mod_lt x (by decide)), ← hbyte]
    have hbit : 7 - x % 8 = 7 - px % 8 ↔ px = x ∧ py = y := by omega
    rw [decide_eq_decide.2 hbit]
  next hbyte =>
    have hother : ¬ (px = x ∧ py = y) := fun ⟨hpx, hpy⟩ => hbyte (by rw [hpx, hpy])
    rw [decide_eq_false hother, Bool.xor_false]

/-- Settles O45: XorPixel is one write, of the pixel's byte with the pixel's bit toggled. -/
theorem xorPixelTogglesOnePixel : Obligations.XorPixelTogglesOnePixel := by
  refine fun m x y hx _ => ⟨rfl, ?_, fun px py hpx _ => m.pixel_xorPixel hx hpx, fun a ha => ?_⟩
  · rw [m.pixel_eq_getLsbD, pixelAddress_eq]
  · rw [Memory.xorPixel, Memory.read_write, pixelAddress_eq, if_neg ha]

/-- The pixels determine the framebuffer: bit j of byte a is a pixel of the screen. -/
theorem Memory.read_eq_of_pixels {m m' : Memory}
    (h : ∀ px py, px < 64 → py < 32 → m.pixel px py = m'.pixel px py) {a : Nat} (hlow : 0xF00 ≤ a)
    (hhigh : a < 0x1000) : m.read a = m'.read a := by
  apply BitVec.eq_of_getLsbD_eq
  intro j hj
  have hpixel := h ((a - 0xF00) % 8 * 8 + (7 - j)) ((a - 0xF00) / 8) (by omega) (by omega)
  simp only [Memory.pixel_eq_getLsbD, pixelAddress_eq] at hpixel
  have hbyte : 0xF00 + 8 * ((a - 0xF00) / 8) + ((a - 0xF00) % 8 * 8 + (7 - j)) / 8 = a := by omega
  have hbit : 7 - ((a - 0xF00) % 8 * 8 + (7 - j)) % 8 = j := by omega
  rwa [hbyte, hbit] at hpixel

end Sys2Proof.Machine
end

section
/-! SPRITE (spec/40_display.md R124 to R129). The columns of a row are distinct, and so are the rows of a sprite of up
to 32 rows; so each pixel is toggled at most once in a row, and the pixel that a set bit meets is the one from before the
row. -/

namespace Sys2Proof.Machine

/-! ### The columns of one row -/

/-- Whether one of the first k columns of a row covers pixel (px, py). -/
def columnsCover (b : Byte) (x y k px py : Nat) : Bool :=
  py == y % 32 && (List.range k).any fun c => (x + c) % 64 == px && spriteBit b c

theorem columnsCover_iff {b : Byte} {x y k px py : Nat} : columnsCover b x y k px py = true ↔
    py = y % 32 ∧ ∃ c, c < k ∧ (x + c) % 64 = px ∧ spriteBit b c = true := by
  simp [columnsCover]

/-- The row as a whole is its first 8 columns. -/
theorem rowCovers_iff {b : Byte} {x y px py : Nat} : rowCovers b x y px py = true ↔
    py = y % 32 ∧ ∃ c, c < 8 ∧ (x + c) % 64 = px ∧ spriteBit b c = true := columnsCover_iff

theorem columnsCover_succ (b : Byte) (x y k px py : Nat) : columnsCover b x y (k + 1) px py =
    (columnsCover b x y k px py || (spriteBit b k && decide (px = (x + k) % 64 ∧ py = y % 32))) := by
  rw [Bool.eq_iff_iff]
  simp only [Bool.or_eq_true, Bool.and_eq_true, decide_eq_true_iff, columnsCover_iff, Nat.exists_lt_succ_right]
  constructor
  · rintro ⟨hpy, hbefore | ⟨hpx, hbit⟩⟩
    · exact .inl ⟨hpy, hbefore⟩
    · exact .inr ⟨hbit, hpx.symm, hpy⟩
  · rintro (⟨hpy, hbefore⟩ | ⟨hbit, hpx, hpy⟩)
    · exact ⟨hpy, .inl hbefore⟩
    · exact ⟨hpy, .inr ⟨hpx.symm, hbit⟩⟩

/-- The columns before column k cover another pixel than it does: eight columns fit the 64 of the screen. -/
theorem columnsCover_next (b : Byte) (x y : Nat) {k : Nat} (hk : k < 64) (py : Nat) :
    columnsCover b x y k ((x + k) % 64) py = false := by
  refine Bool.eq_false_iff.2 fun h => ?_
  obtain ⟨-, c, hc, hpx, -⟩ := columnsCover_iff.1 h
  omega

section
variable (b : Byte) (x y : Nat) (acc : Bool × Memory)

theorem pixel_plotColumn (c : Nat) {px py : Nat} (hpx : px < 64) : (plotColumn b x y acc c).2.pixel px py =
    (acc.2.pixel px py ^^ (spriteBit b c && decide (px = (x + c) % 64 ∧ py = y % 32))) := by
  unfold plotColumn
  split
  next hbit => rw [hbit, Bool.true_and]; exact acc.2.pixel_xorPixel (Nat.mod_lt _ (by decide)) hpx
  next hbit => simp [hbit]

theorem collision_plotColumn (c : Nat) : (plotColumn b x y acc c).1 =
    (acc.1 || (spriteBit b c && acc.2.pixel ((x + c) % 64) (y % 32))) := by
  unfold plotColumn
  split
  next hbit => rw [hbit, Bool.true_and]; rfl
  next hbit => simp [hbit]

/-- The first k columns of the row at y, from column x. -/
def plotColumns (k : Nat) : Bool × Memory := (List.range k).foldl (plotColumn b x y) acc

theorem plotColumns_succ (k : Nat) :
    plotColumns b x y acc (k + 1) = plotColumn b x y (plotColumns b x y acc k) k := by
  simp [plotColumns, List.range_succ]

/-- The first columns toggle exactly the pixels that they cover. -/
theorem pixel_plotColumns {k : Nat} (hk : k ≤ 64) {px py : Nat} (hpx : px < 64) :
    (plotColumns b x y acc k).2.pixel px py = (acc.2.pixel px py ^^ columnsCover b x y k px py) := by
  induction k with
  | zero => simp [plotColumns, columnsCover]
  | succ k ih =>
    rw [plotColumns_succ, pixel_plotColumn _ _ _ _ _ hpx, ih (Nat.le_of_succ_le hk), columnsCover_succ]
    by_cases hhit : px = (x + k) % 64 ∧ py = y % 32
    · rw [hhit.1, columnsCover_next b x y hk, Bool.xor_false, Bool.false_or]
    · rw [decide_eq_false hhit, Bool.and_false, Bool.xor_false, Bool.or_false]

/-- The first columns meet a set pixel when one of their set bits falls on a pixel that was set before the row. -/
theorem collision_plotColumns {k : Nat} (hk : k ≤ 64) : (plotColumns b x y acc k).1 = true ↔
    acc.1 = true ∨ ∃ c, c < k ∧ spriteBit b c = true ∧ acc.2.pixel ((x + c) % 64) (y % 32) = true := by
  induction k with
  | zero => simp [plotColumns]
  | succ k ih =>
    rw [plotColumns_succ, collision_plotColumn, pixel_plotColumns b x y acc (Nat.le_of_succ_le hk)
      (Nat.mod_lt _ (by decide)), columnsCover_next b x y hk, Bool.xor_false, Bool.or_eq_true,
      ih (Nat.le_of_succ_le hk), Bool.and_eq_true, or_assoc, Nat.exists_lt_succ_right]

/-- A row toggles exactly the pixels that it covers. -/
theorem pixel_plotRow {px py : Nat} (hpx : px < 64) :
    (plotRow b x y acc).2.pixel px py = (acc.2.pixel px py ^^ rowCovers b x y px py) :=
  pixel_plotColumns b x y acc (k := 8) (by decide) hpx

/-- A row collides when it covers a pixel of the screen that was set before it. -/
theorem collision_plotRow : (plotRow b x y acc).1 = true ↔ acc.1 = true ∨
    ∃ px py, px < 64 ∧ py < 32 ∧ acc.2.pixel px py = true ∧ rowCovers b x y px py = true := by
  refine (collision_plotColumns b x y acc (k := 8) (by decide)).trans (or_congr_right ⟨?_, ?_⟩)
  · rintro ⟨c, hc, hbit, hset⟩
    exact ⟨_, _, Nat.mod_lt _ (by decide), Nat.mod_lt _ (by decide), hset, rowCovers_iff.2 ⟨rfl, c, hc, rfl, hbit⟩⟩
  · rintro ⟨px, py, -, -, hset, hcovers⟩
    obtain ⟨rfl, c, hc, rfl, hbit⟩ := rowCovers_iff.1 hcovers
    exact ⟨c, hc, hbit, hset⟩

end

/-! ### The rows of a sprite -/

section
variable (base x y : Nat) (m : Memory)

theorem drawRows_succ (n : Nat) : drawRows base x y (n + 1) m =
    plotRow ((drawRows base x y n m).2.read (base + n)) x (y + n) (drawRows base x y n m) := by
  simp only [drawRows, List.range_succ, List.foldl_append, List.foldl_cons, List.foldl_nil, drawRow]

/-- Row r covers a pixel that is set after the rows before it: the collision of R124. -/
def RowCollides (r : Nat) : Prop :=
  ∃ px py, px < 64 ∧ py < 32 ∧ (drawRows base x y r m).2.pixel px py = true ∧
    rowCovers ((drawRows base x y r m).2.read (base + r)) x (y + r) px py = true

theorem collision_drawRows (n : Nat) :
    (drawRows base x y n m).1 = true ↔ ∃ r, r < n ∧ RowCollides base x y m r := by
  induction n with
  | zero => simp [drawRows]
  | succ n ih => rw [drawRows_succ, collision_plotRow, ih, Nat.exists_lt_succ_right]; rfl

end

/-! ### The instruction -/

theorem flagByte_eq_one {f : Bool} : flagByte f = 1 ↔ f = true := by
  cases f <;> decide

/-- What a sprite with its operands read from s does: the collision, and memory after it. -/
def State.sprite (s : State) (x y : Reg) (n : Nat) : Bool × Memory :=
  drawRows s.base (s.getV x).toNat (s.getV y).toNat n s.mem

/-- The state after the sprite is plotted and VF written. -/
def State.drawn (s : State) (x y : Reg) (n : Nat) : State :=
  ((s.setMem (s.sprite x y n).2).setV VF (flagByte (s.sprite x y n).1)).advance

section
variable (s : State) (x y : Reg) (n : Nat)

theorem exec_draw_inRange {n : Nat} (h : n = 0 ∨ s.base + n ≤ 0x1000) :
    exec (.draw x y n) s = .next (s.drawn x y n) := checkedAccess_inRange s _ h

@[simp] theorem State.drawn_mem : (s.drawn x y n).mem = (s.sprite x y n).2 := rfl
@[simp] theorem State.getV_drawn_flag : (s.drawn x y n).getV VF = flagByte (s.sprite x y n).1 := by
  simp [State.drawn]

end

/-- Settles O46: memory goes through the states after each row, and VF is the collision of some row. -/
theorem spriteTogglesItsPixelsRowByRow : Obligations.SpriteTogglesItsPixelsRowByRow := by
  refine fun x y n s => ⟨fun hn => spells_encode (i := .draw x y n) (decide_eq_true hn), fun hin => ?_,
    fun hn hout => exec_of_raisedBy (if_pos ⟨hn, hout⟩)⟩
  have hflag := collision_drawRows s.base (s.getV x).toNat (s.getV y).toNat s.mem n
  refine ⟨_, fun r => (s.sprite x y r).2, exec_draw_inRange s x y (by simp only [State.base]; omega), rfl, rfl,
    fun r _ => ⟨fun px py hpx _ => ?_, fun a ha => ?_⟩, ?_, ?_, rfl, frame_drawn_advance s _ _ _ _ _⟩
  · simp only [State.sprite, drawRows_succ]
    exact pixel_plotRow _ _ _ _ hpx
  · have hout : ¬ (0xF00 ≤ a ∧ a < 0x1000) := by omega
    simp only [State.sprite, read_drawRows_outside _ _ _ _ _ a hout]
  · rintro ⟨r, px, py, hr, hhit⟩
    rw [State.getV_drawn_flag]
    exact flagByte_of_true (hflag.2 ⟨r, hr, px, py, hhit⟩)
  · intro hmiss
    rw [State.getV_drawn_flag]
    refine flagByte_of_false (Bool.eq_false_iff.2 fun h => ?_)
    obtain ⟨r, hr, px, py, hpx, hpy, hset, hcovers⟩ := hflag.1 h
    exact Bool.false_ne_true ((hmiss r px py hr hpx hpy hset).symm.trans hcovers)

/-! ### A sprite outside the framebuffer -/

/-- Whether one of the first n rows of the sprite at base, as its bytes stand in m, covers pixel (px, py). -/
def spriteCovers (m : Memory) (base x y n px py : Nat) : Bool :=
  (List.range n).any fun r => rowCovers (m.read (base + r)) x (y + r) px py

theorem spriteCovers_iff {m : Memory} {base x y n px py : Nat} : spriteCovers m base x y n px py = true ↔
    ∃ r, r < n ∧ rowCovers (m.read (base + r)) x (y + r) px py = true := by
  simp [spriteCovers]

theorem spriteCovers_succ (m : Memory) (base x y n px py : Nat) : spriteCovers m base x y (n + 1) px py =
    (spriteCovers m base x y n px py || rowCovers (m.read (base + n)) x (y + n) px py) := by
  simp [spriteCovers, List.range_succ]

/-- The rows before row n cover other pixels than it does: they are fewer than the 32 rows of the screen. -/
theorem spriteCovers_next {m : Memory} {base x y n px py : Nat} {b : Byte} (hn : n < 32)
    (h : rowCovers b x (y + n) px py = true) : spriteCovers m base x y n px py = false := by
  refine Bool.eq_false_iff.2 fun hbefore => ?_
  obtain ⟨r, hr, hrow⟩ := spriteCovers_iff.1 hbefore
  have hpy := (rowCovers_iff.1 h).1
  have hpy' := (rowCovers_iff.1 hrow).1
  omega

section
variable {base x y n : Nat} {m : Memory} (hn : n ≤ 32) (hbelow : ∀ r, r < n → base + r < 0xF00)

/-- A sprite outside the framebuffer is not changed by its own rows. -/
theorem read_sprite_drawRows (k : Nat) {r : Nat} (hr : base + r < 0xF00) :
    (drawRows base x y k m).2.read (base + r) = m.read (base + r) :=
  read_drawRows_outside _ _ _ _ _ _ (by omega)

include hn hbelow

/-- It toggles exactly the pixels that it covers. -/
theorem pixel_drawRows {px py : Nat} (hpx : px < 64) : (drawRows base x y n m).2.pixel px py =
    (m.pixel px py ^^ spriteCovers m base x y n px py) := by
  induction n with
  | zero => simp [drawRows, spriteCovers]
  | succ n ih =>
    have hbefore := ih (Nat.le_of_succ_le hn) fun r hr => hbelow r (Nat.lt_succ_of_lt hr)
    rw [drawRows_succ, pixel_plotRow _ _ _ _ hpx, read_sprite_drawRows n (hbelow n (Nat.lt_succ_self n)), hbefore,
      spriteCovers_succ]
    cases hrow : rowCovers (m.read (base + n)) x (y + n) px py
    · rw [Bool.xor_false, Bool.or_false]
    · rw [spriteCovers_next hn hrow, Bool.xor_false, Bool.false_or]

/-- Where row r covers a pixel, the rows before it have left that pixel as it was. -/
theorem pixel_before_row {r px py : Nat} (hr : r < n) (hpx : px < 64) {b : Byte}
    (hrow : rowCovers b x (y + r) px py = true) : (drawRows base x y r m).2.pixel px py = m.pixel px py := by
  have hr32 : r < 32 := Nat.lt_of_lt_of_le hr hn
  rw [pixel_drawRows (Nat.le_of_lt hr32) (fun q hq => hbelow q (hq.trans hr)) hpx, spriteCovers_next hr32 hrow,
    Bool.xor_false]

/-- It collides exactly when it covers a pixel that was set before it. -/
theorem collision_drawRows_iff : (drawRows base x y n m).1 = true ↔
    ∃ px py, px < 64 ∧ py < 32 ∧ spriteCovers m base x y n px py = true ∧ m.pixel px py = true := by
  rw [collision_drawRows]
  constructor
  · rintro ⟨r, hr, px, py, hpx, hpy, hset, hrow⟩
    rw [read_sprite_drawRows r (hbelow r hr)] at hrow
    rw [pixel_before_row hn hbelow hr hpx hrow] at hset
    exact ⟨px, py, hpx, hpy, spriteCovers_iff.2 ⟨r, hr, hrow⟩, hset⟩
  · rintro ⟨px, py, hpx, hpy, hcovers, hset⟩
    obtain ⟨r, hr, hrow⟩ := spriteCovers_iff.1 hcovers
    refine ⟨r, hr, px, py, hpx, hpy, ?_, ?_⟩
    · rwa [pixel_before_row hn hbelow hr hpx hrow]
    · rwa [read_sprite_drawRows r (hbelow r hr)]

omit hn in
/-- Drawn again, it covers the same pixels. -/
theorem spriteCovers_drawRows (px py : Nat) :
    spriteCovers (drawRows base x y n m).2 base x y n px py = spriteCovers m base x y n px py := by
  rw [Bool.eq_iff_iff, spriteCovers_iff, spriteCovers_iff]
  refine exists_congr fun r => and_congr_right fun hr => ?_
  rw [read_sprite_drawRows n (hbelow r hr)]

/-- Drawn twice, it toggles each pixel twice or not at all, and memory is as before. -/
theorem read_drawRows_twice (a : Nat) :
    (drawRows base x y n (drawRows base x y n m).2).2.read a = m.read a := by
  by_cases ha : 0xF00 ≤ a ∧ a < 0x1000
  · refine Memory.read_eq_of_pixels (fun px py hpx _ => ?_) ha.1 ha.2
    rw [pixel_drawRows hn hbelow hpx, spriteCovers_drawRows hbelow, pixel_drawRows hn hbelow hpx, Bool.xor_assoc,
      Bool.xor_self, Bool.xor_false]
  · rw [read_drawRows_outside _ _ _ _ _ a ha, read_drawRows_outside _ _ _ _ _ a ha]

/-- Drawn a second time, it collides exactly when it covers a pixel that was off before the first. -/
theorem collision_drawRows_twice : (drawRows base x y n (drawRows base x y n m).2).1 = true ↔
    ∃ px py, px < 64 ∧ py < 32 ∧ spriteCovers m base x y n px py = true ∧ m.pixel px py = false := by
  rw [collision_drawRows_iff hn hbelow]
  refine exists_congr fun px => exists_congr fun py => and_congr_right fun hpx => and_congr_right fun _ => ?_
  rw [spriteCovers_drawRows hbelow, pixel_drawRows hn hbelow hpx]
  refine and_congr_right fun hcovers => ?_
  rw [hcovers, Bool.xor_true, Bool.not_eq_true']

end

/-- Settles O47: the second draw has the same operands, so it is the same sprite over the memory that the first one
left. -/
theorem spriteTwiceRestoresTheScreen : Obligations.SpriteTwiceRestoresTheScreen := by
  intro x y n s t u hn hbelow hfirst hvx hvy hsecond
  have hfits : n = 0 ∨ s.base + n ≤ 0x1000 := hbelow.imp_right fun h => h.trans (by decide)
  cases hfirst.symm.trans (exec_draw_inRange s x y hfits)
  cases hsecond.symm.trans (exec_draw_inRange (s.drawn x y n) x y hfits)
  have hrows : n ≤ 32 := hn.trans (by decide)
  have hoff : ∀ r, r < n → s.base + r < 0xF00 := fun r hr => by simp only [State.base]; omega
  have hsprite : (s.drawn x y n).sprite x y n =
      drawRows s.base (s.getV x).toNat (s.getV y).toNat n (s.sprite x y n).2 := by
    rw [State.sprite, hvx, hvy]; rfl
  refine ⟨fun a => ?_, ?_, ?_⟩
  · rw [State.drawn_mem, hsprite]
    exact read_drawRows_twice hrows hoff a
  · rw [State.getV_drawn_flag, flagByte_eq_one]
    simp only [← spriteCovers_iff]
    exact collision_drawRows_iff hrows hoff
  · rw [State.getV_drawn_flag, flagByte_eq_one, hsprite]
    simp only [← spriteCovers_iff]
    exact collision_drawRows_twice hrows hoff

end Sys2Proof.Machine
end
